-- ==== Sys2Proof/Word.lean ====
section
/-! DEFINITION. The value types of the codec core: bytes, bit groups, buffers, error pairs (00_scope.md R8, R13;
20_memory.md R40; 30_encoding.md R65, R67), the port bundle of format CW (30_encoding.md R63), and the two small
enumerations of the spec: the outcome of a codeword check (R66) and the parameter HAM_E_OOR (00_scope.md R7). -/

namespace Sys2Proof

/-- A byte of a buffer. Bit `byte[7]` is the first bit of its byte block (20_memory.md R41). -/
abbrev Byte := BitVec 8

/-- A byte buffer: byte offset n is list position n, the length is L (20_memory.md R40). -/
abbrev Buffer := List Byte

/-- A group or stream of bits in stream order: position 0 is the first, most significant bit (00_scope.md R8). -/
abbrev Group := List Bool

/-- A pair (codeword index k, bit index b) of an error list or report (30_encoding.md R67). -/
abbrev ErrorPair := Nat × Nat

/-- The columns of H: column j is the byte whose most significant bit is row 0 (00_scope.md R10). -/
abbrev Columns := Vector Byte 16

/-- What the Hamming checker does with a syndrome 13, 14 or 15 (00_scope.md R7, 41_hamming.md R94). -/
inductive HamEOor
  /-- the index e − 1 is reported like any other -/
  | report
  /-- nothing is reported: class UNLOCATED -/
  | drop
  deriving DecidableEq, Repr, Inhabited

/-- What a checker or locator says of one codeword (30_encoding.md R66). -/
inductive Verdict
  /-- NONE: the syndrome is zero -/
  | none
  /-- SINGLE: one bit position located -/
  | single (p0 : Nat)
  /-- DOUBLE: a pair of bit positions located -/
  | double (p0 p1 : Nat)
  /-- UNLOCATED: the syndrome is non-zero and no position is located -/
  | unlocated
  deriving DecidableEq, Repr

/-- The four output ports of format CW with their widths (30_encoding.md R63). -/
structure Ports where
  /-- the vector result -/
  q   : BitVec 16
  /-- the class, or `hit` in bit 0 -/
  cls : BitVec 2
  /-- first reported bit index -/
  p0  : BitVec 4
  /-- second reported bit index -/
  p1  : BitVec 4
  deriving DecidableEq, Repr, Inhabited

/-- A value returned by an operation of format BUF (30_encoding.md R62, R65). -/
inductive Returned
  | bytes (b : Buffer)
  | report (r : List ErrorPair)
  | groups (gs : List Group)
  deriving DecidableEq, Repr

end Sys2Proof
end

