-- ==== Sys2Proof/Syntax.lean ====
section
/-! DEFINITION. The operations of the hardware, one constructor per row of 30_encoding.md R62, and the operands a
transaction carries beside the operation number (R60, R63, R65). -/

namespace Sys2Proof

/-- The 22 operations of 30_encoding.md R62. The operation number is the whole instruction: it has no operand field
(R60), so no constructor has an argument; the operands are in `Operands`. -/
inductive Instr
  | henc | hsyn | hloc | hchk | hdec
  | senc | ssyn | sloc1 | schk | sdec | sloc2
  | encode | check | fixErrors | decode
  | b2g | pack | patch
  | encode2Bit | check2Bit | fixErrors2Bit | decode2Bit
  deriving DecidableEq, Repr

/-- Format BUF (30_encoding.md R61), the operations on buffers and lists. -/
def Instr.isBuf : Instr → Bool
  | .henc | .hsyn | .hloc | .hchk | .hdec => false
  | .senc | .ssyn | .sloc1 | .schk | .sdec | .sloc2 => false
  | .encode | .check | .fixErrors | .decode => true
  | .b2g | .pack | .patch => true
  | .encode2Bit | .check2Bit | .fixErrors2Bit | .decode2Bit => true

/-- The operation belongs to the SECDED code (30_encoding.md R61: `op[3]` is 1). -/
def Instr.isSecded : Instr → Bool
  | .henc | .hsyn | .hloc | .hchk | .hdec => false
  | .senc | .ssyn | .sloc1 | .schk | .sdec | .sloc2 => true
  | .encode | .check | .fixErrors | .decode => false
  | .b2g | .pack | .patch => false
  | .encode2Bit | .check2Bit | .fixErrors2Bit | .decode2Bit => true

/-- The operands of a transaction. An operation reads those its row of R62 names and ignores the others. -/
structure Operands where
  /-- input port `a` of format CW (30_encoding.md R63) -/
  a      : BitVec 16
  /-- the data or transmitted buffer (30_encoding.md R65) -/
  buf    : Buffer
  /-- the error list of fixErrors and fixErrors2Bit (30_encoding.md R67) -/
  errors : List ErrorPair
  /-- the groups of PACK (40_bitstream_adapter.md R81) -/
  groups : List Group
  /-- the group size of B2G (40_bitstream_adapter.md R80) -/
  g      : Nat
  /-- the codeword width of PATCH (43_patcher.md R137) -/
  W      : Nat
  /-- the pair (k, b) of PATCH (43_patcher.md R137) -/
  pair   : ErrorPair
  deriving DecidableEq, Repr

end Sys2Proof
end

