-- ==== Sys2Proof/Decode.lean ====
section
/-! DEFINITION. Operation numbers: the decoder, read from the field structure of 30_encoding.md R61 (format, code,
function), and the encoder, written from the numbers of the table R62. Numbers of R71 select no operation. -/

namespace Sys2Proof

/-- Why a number selects no operation. -/
inductive DecodeRefusal
  /-- a reserved operation number (30_encoding.md R71) -/
  | reserved (op : BitVec 5)
  deriving DecidableEq, Repr

/-- The operation a 5-bit number selects: `op[4]` the format, `op[3]` the code, `op[2:0]` the function (30_encoding.md
R61). -/
def decode (op : BitVec 5) : Except DecodeRefusal Instr :=
  match op.getLsbD 4, op.getLsbD 3, (op.setWidth 3).toNat with
  | false, false, 0 => .ok .henc
  | false, false, 1 => .ok .hsyn
  | false, false, 2 => .ok .hloc
  | false, false, 3 => .ok .hchk
  | false, false, 4 => .ok .hdec
  | false, true, 0 => .ok .senc
  | false, true, 1 => .ok .ssyn
  | false, true, 2 => .ok .sloc1
  | false, true, 3 => .ok .schk
  | false, true, 4 => .ok .sdec
  | false, true, 5 => .ok .sloc2
  | true, false, 0 => .ok .encode
  | true, false, 1 => .ok .check
  | true, false, 2 => .ok .fixErrors
  | true, false, 3 => .ok .decode
  | true, false, 4 => .ok .b2g
  | true, false, 5 => .ok .pack
  | true, false, 6 => .ok .patch
  | true, true, 0 => .ok .encode2Bit
  | true, true, 1 => .ok .check2Bit
  | true, true, 2 => .ok .fixErrors2Bit
  | true, true, 3 => .ok .decode2Bit
  | _, _, _ => .error (.reserved op)

/-- The operation number of 30_encoding.md R62. -/
def encode : Instr → BitVec 5
  | .henc => 0
  | .hsyn => 1
  | .hloc => 2
  | .hchk => 3
  | .hdec => 4
  | .senc => 8
  | .ssyn => 9
  | .sloc1 => 10
  | .schk => 11
  | .sdec => 12
  | .sloc2 => 13
  | .encode => 16
  | .check => 17
  | .fixErrors => 18
  | .decode => 19
  | .b2g => 20
  | .pack => 21
  | .patch => 22
  | .encode2Bit => 24
  | .check2Bit => 25
  | .fixErrors2Bit => 26
  | .decode2Bit => 27

/-- The operation number carried by a word: the port `op` has five wires, so only bits 4 to 0 reach it. DESIGN CHOICE,
log entry 9. -/
def opOfWord (w : Nat) : BitVec 5 := BitVec.ofNat 5 w

/-- A sequence of bytes as the decoder of a program meets it: one operation number per byte (95_test_vectors.md section
7, "its encoding is the list of operation numbers"), and what follows. `none` when no byte is left. -/
def decodeBytes : List Byte → Option (Except DecodeRefusal Instr × List Byte)
  | [] => none
  | b :: rest => some (decode (opOfWord b.toNat), rest)

/-- The operation the decoder reads from a word of the opcode table (bit 0 the least significant). -/
def decodeTableWord (_nbits w : Nat) : Option Instr :=
  match decode (opOfWord w) with
  | .ok i => some i
  | .error _ => none

end Sys2Proof
end

