-- ==== Sys2Proof/Machine/Bits.lean ====
section
/-! DEFINITION. Bits and bit sequences: the two numberings of 00_scope.md R8 and the sum over GF(2) of R9. Index 0 is
the first bit in stream order, which is the most significant bit of a number. -/

namespace Sys2Proof.Machine

/-- `v⟨i⟩`, the bit of stream index i: `seq_n(v)⟨i⟩ = v[n−1−i]` (00_scope.md R8); false outside the sequence. -/
abbrev bitAt {n : Nat} (v : BitVec n) (i : Nat) : Bool := v.getMsbD i

/-- The number of width n whose stream bit i is `f i`, `val_n` of 00_scope.md R8. -/
def ofBits : (n : Nat) → (Nat → Bool) → BitVec n
  | 0, _ => 0#0
  | n + 1, f => (ofBits n f).concat (f n)

/-- `seq_n(v)`, the bit sequence of a number (00_scope.md R8). -/
def seqOf {n : Nat} (v : BitVec n) : Group := (List.range n).map (bitAt v)

/-- `val_n` of a bit sequence (00_scope.md R8). -/
def valOf (n : Nat) (s : Group) : BitVec n := ofBits n fun i => s.getD i false

/-- Exclusive or of a list of bits, false for the empty list (00_scope.md R9). -/
def xorAll (s : List Bool) : Bool := s.foldr xor false

/-- The word with a single 1, at stream index b. -/
def unitAt (n b : Nat) : BitVec n := ofBits n (· == b)

/-- The word with the stream bits of the listed indices flipped, one flip for each entry of the list. -/
def flipAt {n : Nat} (v : BitVec n) (idx : List Nat) : BitVec n := idx.foldl (fun w b => w ^^^ unitAt n b) v

end Sys2Proof.Machine
end

