-- ==== Sys2Proof/Machine/AdapterCode.lean ====
section
/-! DEFINITION. The bit-stream adapter as functions on values (40_bitstream_adapter.md R80, R81). -/

namespace Sys2Proof.Machine

/-- `bits(buf)`, the byte blocks in ascending byte offset (20_memory.md R42). -/
def bitsOf (buf : Buffer) : Group := buf.flatMap seqOf

/-- B2G for g ≥ 1: the complete groups of g bits, the trailing bits dropped (40_bitstream_adapter.md R80). -/
def b2g (data : Buffer) (g : Nat) : List Group :=
  (List.range (8 * data.length / g)).map fun m => ((bitsOf data).drop (m * g)).take g

/-- PACK: the groups concatenated, packed most significant bit first, the last byte padded with zero bits
(40_bitstream_adapter.md R81). -/
def pack (groups : List Group) : Buffer :=
  (List.range ((groups.flatten.length + 7) / 8)).map fun a =>
    ofBits 8 fun r => groups.flatten.getD (8 * a + r) false

end Sys2Proof.Machine
end

