-- ==== Sys2Proof/Machine/SecdedCode.lean ====
section
/-! DEFINITION. The codeword-level functions of the SECDED(16,8) codec as typed functions of the columns of H
(42_secded.md R110 to R120) and the predicates V1 to V4 on H (10_state.md R24 to R28). -/

namespace Sys2Proof.Machine

/-- `col(j)` (00_scope.md R10). -/
def col (H : Columns) (j : Nat) : Byte := H[j]?.getD 0#8

/-- `H[r][j]` (00_scope.md R10). -/
def entry (H : Columns) (r j : Nat) : Bool := bitAt (col H j) r

/-- SENC: data bits unchanged, then `parity = (H[:, :8] · data) mod 2` (42_secded.md R110). -/
def senc (H : Columns) (d : Byte) : BitVec 16 :=
  ofBits 16 fun i =>
    if i < 8 then bitAt d i
    else xorAll ((List.range 8).map fun j => entry H (i - 8) j && bitAt d j)

/-- SSYN: `syndrome = (H · c) mod 2` (42_secded.md R112). -/
def ssyn (H : Columns) (c : BitVec 16) : Byte :=
  ofBits 8 fun r => xorAll ((List.range 16).map fun j => entry H r j && bitAt c j)

/-- SLOC1: the column equal to the syndrome, searched in ascending order (42_secded.md R114). -/
def sloc1 (H : Columns) (s : Byte) : Option Nat := (List.range 16).find? fun j => col H j == s

/-- The 120 column pairs j < k in the order (0,1), (0,2), …, (14,15) (42_secded.md R116). -/
def columnPairs : List (Nat × Nat) :=
  (List.range 15).flatMap fun j => (List.range' (j + 1) (15 - j)).map fun k => (j, k)

/-- SLOC2: the first pair of columns whose exclusive or is the syndrome (42_secded.md R116). -/
def sloc2 (H : Columns) (s : Byte) : Option (Nat × Nat) :=
  columnPairs.find? fun jk => col H jk.1 ^^^ col H jk.2 == s

/-- SCHK: zero syndrome, then a single column, then a pair, then nothing (42_secded.md R118). -/
def schk (H : Columns) (c : BitVec 16) : Verdict :=
  if ssyn H c = 0#8 then .none
  else match sloc1 H (ssyn H c) with
    | some j => .single j
    | none => match sloc2 H (ssyn H c) with
      | some (j, k) => .double j k
      | none => .unlocated

/-- SDEC: the first eight bits (42_secded.md R120). -/
def sdec (c : BitVec 16) : Byte := ofBits 8 fun j => bitAt c j

/-- V1, required of H: the columns are non-zero and pairwise distinct (10_state.md R24). -/
abbrev V1 (H : Columns) : Prop := (∀ j < 16, col H j ≠ 0#8) ∧ ∀ k < 16, ∀ j < k, col H j ≠ col H k

/-- V2, required of H: every valid codeword has the zero syndrome (10_state.md R25). -/
abbrev V2 (H : Columns) : Prop := ∀ d < 256, ssyn H (senc H (BitVec.ofNat 8 d)) = 0#8

/-- V3, optional: no column is the exclusive or of two others (10_state.md R27). -/
abbrev V3 (H : Columns) : Prop := ∀ k < 16, ∀ j < k, ∀ m < 16, col H j ^^^ col H k ≠ col H m

/-- V4, optional: the exclusive ors of the 120 column pairs are pairwise distinct (10_state.md R28). -/
abbrev V4 (H : Columns) : Prop :=
  ∀ p ∈ columnPairs, ∀ q ∈ columnPairs, p ≠ q → col H p.1 ^^^ col H p.2 ≠ col H q.1 ^^^ col H q.2

/-- The validation of H at initialisation: V1 and V2 (70_reset_and_hazards.md R165). -/
def validColumns (H : Columns) : Bool := decide (V1 H ∧ V2 H)

end Sys2Proof.Machine
end

