-- ==== Sys2Proof/Config.lean ====
section
/-! DEFINITION. What is fixed for one machine (00_scope.md R7): the parity-check matrix H with the proof of V1 and V2 that
10_state.md R23 and 70_reset_and_hazards.md R166 ask for, and the parameter HAM_E_OOR. Both are open in the spec
(92_eei_decisions.md D6, D10), so their configured values are opaque constants without a body: nothing can be proved of
them beyond their type. The values the spec leaves unspecified on the output ports (93_implementation_defined.md U10)
are opaque too. -/

namespace Sys2Proof

/-- The columns of `H_ref` of 95_test_vectors.md section 5.1. Not the repository's matrix (92_eei_decisions.md D8). -/
def hRefColumns : Columns :=
  #v[0x0F, 0x33, 0x55, 0x6A, 0x96, 0xAB, 0xDB, 0xED, 0x80, 0x40, 0x20, 0x10, 0x08, 0x04, 0x02, 0x01]

/-- H: its 16 columns together with the outcome of the validation of 70_reset_and_hazards.md R165. A matrix that fails V1
or V2 is no value of this type, which is how R166 refuses it. The defaults serve only to show that the type has a value,
which an opaque constant needs. -/
structure ParityMatrix where
  cols  : Columns := hRefColumns
  valid : Machine.validColumns cols = true := by decide +kernel
  deriving DecidableEq, Repr, Inhabited

/-- The configuration of a machine. No operation writes it (10_state.md R22, R23). -/
structure Config where
  /-- the parity-check matrix (10_state.md R23) -/
  H       : ParityMatrix
  /-- what HLOC does with a syndrome 13, 14 or 15 (41_hamming.md R94) -/
  hamEOor : HamEOor
  deriving DecidableEq, Repr, Inhabited

/-- The configured H and HAM_E_OOR. The spec gives neither value (92_eei_decisions.md D6, D10); log entries 2 and 3. -/
opaque Config.configured : Config

/-- What the CW output ports show before, between and beside CW operations (93_implementation_defined.md U10, "any value"):
the n-th such value. Free value, log entry 4. -/
opaque Config.freePorts : Nat → Ports

end Sys2Proof
end

