-- ==== Sys2Proof/Machine/State.lean ====
section
/-! DEFINITION. The state at the boundary of the hardware: the configuration, what the caller presents, and what the
operation just performed handed back. The hardware itself keeps nothing between operations (10_state.md R20 to R22, R30);
log entry 1 says why the presented inputs and the results stand in State. -/

namespace Sys2Proof.Machine

/-- The machine never faults: "every transaction with a defined operation number is a step that yields results, never a
fault" (60_exceptions.md R150). The type has no value, so nobody raises one. -/
inductive Fault
  deriving DecidableEq, Repr

/-- Why a transaction is refused at the boundary (60_exceptions.md R150). -/
inductive Refusal
  /-- Raised by an arm of `exec` that has no meaning yet. Safe: the machine stops. No arm raises it. -/
  | notModelled (mnemonic : String)
  /-- Raised by `step` on a reserved operation number (30_encoding.md R71). Safe: no result, nothing can be proved of it. -/
  | reservedOperation (op : BitVec 5)
  /-- Raised by B2G on a group size of 0 (40_bitstream_adapter.md R80). Safe: no result. -/
  | groupSizeZero
  deriving DecidableEq, Repr

/-- What stands at the boundary of the codec core. -/
structure State where
  /-- H and HAM_E_OOR, fixed for the machine (10_state.md R23, 00_scope.md R7) -/
  cfg      : Config
  /-- the operation number on port `op`, absent while the caller presents no operation (30_encoding.md R60, R63) -/
  op       : Option (BitVec 5)
  /-- the operands the caller presents (30_encoding.md R63, R65) -/
  operands : Operands
  /-- the CW output ports (30_encoding.md R63) -/
  out      : Ports
  /-- the value the step just made returned, if it performed a BUF operation (30_encoding.md R65) -/
  returned : Option Returned
  /-- the model's own: how many free port values have been drawn (log entry 4) -/
  drawn    : Nat
  deriving DecidableEq, Repr

/-- The operands that stand at the boundary after reset: each the least value its rule admits. DESIGN CHOICE, log entry
6. -/
def resetOperands : Operands :=
  { a := 0, buf := [], errors := [], groups := [], g := 1, W := 12, pair := (0, 0) }

/-- After reset: H and HAM_E_OOR as configured, no operation presented, nothing returned, and the output ports
unspecified (10_state.md R32, 93_implementation_defined.md U10). -/
def State.reset : State :=
  { cfg := Config.configured
    op := none
    operands := resetOperands
    out := Config.freePorts 0
    returned := none
    drawn := 1 }

end Sys2Proof.Machine
end

