-- ==== Sys2Proof/Machine/Ops.lean ====
section
/-! DEFINITION. The shared operations: one byte of a buffer (00_scope.md R11, 20_memory.md R47), how a transaction hands
back its results, and the caller's two actions (70_reset_and_hazards.md R176). There is no exception to take or return
from (60_exceptions.md R150), so no operation of that kind stands here. -/

namespace Sys2Proof.Machine

/-- `MemRead(buf, a, 1)` for a < |buf| (00_scope.md R11). No operation reads outside its buffer; the value there is never
used. -/
def memRead (buf : Buffer) (a : Nat) : Byte := buf.getD a 0

/-- `MemWrite(buf, a, 1, v)` on the operation's own copy (00_scope.md R11). -/
def memWrite (buf : Buffer) (a : Nat) (v : Byte) : Buffer := buf.set a v

/-- A CW operation ends: its results stand on the ports, and no value is returned (30_encoding.md R61, R63). They stand
there until the next step or the caller's next action. DESIGN CHOICE, log entry 4. -/
def State.drive (s : State) (p : Ports) : State := { s with out := p, returned := none }

/-- A BUF operation ends: its result is returned as a value (30_encoding.md R65). The CW ports carry no result of it and
show any value (93_implementation_defined.md U10). -/
def State.giveBack (s : State) (r : Returned) : State :=
  { s with out := Config.freePorts s.drawn, returned := some r, drawn := s.drawn + 1 }

/-- No operation is presented: nothing is returned, and the CW ports show any value (93_implementation_defined.md U10).
DESIGN CHOICE, log entry 5. -/
def State.idle (s : State) : State :=
  { s with out := Config.freePorts s.drawn, returned := none, drawn := s.drawn + 1 }

/-- The caller presents an operation number and operands (30_encoding.md R60, 70_reset_and_hazards.md R176). What the CW
ports show from then until the step is open (R175; 93_implementation_defined.md U10): a free value, also after a CW
operation. DESIGN CHOICE, log entry 4. -/
def State.present (s : State) (op : BitVec 5) (o : Operands) : State :=
  { s with op := some op, operands := o, out := Config.freePorts s.drawn, drawn := s.drawn + 1 }

/-- The caller presents no operation. What the CW ports show is then open (70_reset_and_hazards.md R175;
93_implementation_defined.md U10): a free value, also after a CW operation. DESIGN CHOICE, log entry 4. -/
def State.withdraw (s : State) : State :=
  { s with op := none, out := Config.freePorts s.drawn, drawn := s.drawn + 1 }

end Sys2Proof.Machine
end

