-- ==== Sys2Proof/Machine/Adapter.lean ====
section
/-! DEFINITION. The meanings of the bit-stream adapter's operations (40_bitstream_adapter.md). -/

namespace Sys2Proof.Machine

/-- B2G: the groups of g bits of the data; g = 0 is refused (40_bitstream_adapter.md R80). -/
def execB2g (s : State) : Host.Outcome State Fault Refusal :=
  if s.operands.g = 0 then .refused .groupSizeZero
  else .next (s.giveBack (.groups (b2g s.operands.buf s.operands.g)))

/-- PACK: the buffer of the groups (40_bitstream_adapter.md R81). -/
def execPack (s : State) : Host.Outcome State Fault Refusal :=
  .next (s.giveBack (.bytes (pack s.operands.groups)))

end Sys2Proof.Machine
end

