-- ==== Sys2Proof/Machine/HammingCode.lean ====
section
/-! DEFINITION. The codeword-level functions of the Hamming(12,8) codec as typed functions (41_hamming.md R90 to R96;
constants of 10_state.md R29, layout of 30_encoding.md R68). -/

namespace Sys2Proof.Machine

/-- The 0-based indices of the data bits (10_state.md R29). -/
def dataPos : List Nat := [2, 4, 5, 6, 8, 9, 10, 11]

/-- The 0-based indices of the parity bits (10_state.md R29). -/
def parPos : List Nat := [0, 1, 3, 7]

/-- `GROUP(p)`, the 1-based positions i in 1..12 with `i & p ≠ 0` (10_state.md R29). -/
def parityGroup (p : Nat) : List Nat := (List.range' 1 12).filter fun i => i &&& p != 0

/-- The data bit that stands at index b of the codeword of d, false at a parity index (41_hamming.md R90). -/
def placedData (d : Byte) (b : Nat) : Bool :=
  match dataPos.idxOf? b with
  | some i => bitAt d i
  | none => false

/-- The parity bit of 1-based position p: the sum over its group without p itself (41_hamming.md R90, 90_conflicts.md
C1). -/
def parityBit (d : Byte) (p : Nat) : Bool :=
  xorAll (((parityGroup p).filter (· ≠ p)).map fun i => placedData d (i - 1))

/-- HENC, parity-bit insertion (41_hamming.md R90). -/
def henc (d : Byte) : BitVec 12 :=
  ofBits 12 fun b => if parPos.contains b then parityBit d (b + 1) else placedData d b

/-- `chk_p`, the check of 1-based position p over its whole group (41_hamming.md R92). -/
def hamCheckBit (c : BitVec 12) (p : Nat) : Bool :=
  xorAll ((parityGroup p).map fun i => bitAt c (i - 1))

/-- HSYN, the syndrome e = 1·chk_1 + 2·chk_2 + 4·chk_4 + 8·chk_8 (41_hamming.md R92). -/
def hsyn (c : BitVec 12) : BitVec 4 :=
  BitVec.ofNat 4 (1 * (hamCheckBit c 1).toNat + 2 * (hamCheckBit c 2).toNat + 4 * (hamCheckBit c 4).toNat
    + 8 * (hamCheckBit c 8).toNat)

/-- HLOC, syndrome to bit index (41_hamming.md R94). -/
def hloc (oor : HamEOor) (e : BitVec 4) : Verdict :=
  if e.toNat = 0 then .none
  else if e.toNat ≤ 12 then .single (e.toNat - 1)
  else match oor with
    | .report => .single (e.toNat - 1)
    | .drop => .unlocated

/-- HCHK (41_hamming.md R95). -/
def hchk (oor : HamEOor) (c : BitVec 12) : Verdict := hloc oor (hsyn c)

/-- HDEC, the data bits in order (41_hamming.md R96). -/
def hdec (c : BitVec 12) : Byte := ofBits 8 fun i => bitAt c (dataPos.getD i 0)

end Sys2Proof.Machine
end

