-- ==== Sys2Proof/Machine/BufferCode.lean ====
section
/-! DEFINITION. The buffer-level codec operations as functions on values (41_hamming.md R98 to R102, 42_secded.md R124 to
R128). -/

namespace Sys2Proof.Machine

/-- The bit indices one codeword adds to an error report: one for SINGLE, two for DOUBLE, lower first, none otherwise
(41_hamming.md R100, 42_secded.md R126). -/
def reportedIndices : Verdict → List Nat
  | .none => []
  | .single p => [p]
  | .double p q => [p, q]
  | .unlocated => []

/-- The report over a list of checked codewords in ascending index (41_hamming.md R100, 42_secded.md R126). -/
def reportOf (vs : List Verdict) : List ErrorPair :=
  vs.zipIdx.flatMap fun vk => (reportedIndices vk.1).map fun b => (vk.2, b)

/-- encode (41_hamming.md R98). -/
def hamEncode (data : Buffer) : Buffer := pack ((b2g data 8).map fun g => seqOf (henc (valOf 8 g)))

/-- check (41_hamming.md R100). -/
def hamCheck (oor : HamEOor) (buf : Buffer) : List ErrorPair :=
  reportOf ((b2g buf 12).map fun g => hchk oor (valOf 12 g))

/-- decode (41_hamming.md R102). -/
def hamDecode (buf : Buffer) : Buffer := (b2g buf 12).map fun g => hdec (valOf 12 g)

/-- encode2Bit (42_secded.md R124). -/
def secEncode (H : Columns) (data : Buffer) : Buffer :=
  pack ((b2g data 8).map fun g => seqOf (senc H (valOf 8 g)))

/-- check2Bit (42_secded.md R126). -/
def secCheck (H : Columns) (buf : Buffer) : List ErrorPair :=
  reportOf ((b2g buf 16).map fun g => schk H (valOf 16 g))

/-- decode2Bit (42_secded.md R128). -/
def secDecode (buf : Buffer) : Buffer := (b2g buf 16).map fun g => sdec (valOf 16 g)

end Sys2Proof.Machine
end

