-- ==== Sys2Proof/Machine/Flags.lean ====
section
/-! DEFINITION. The hardware has no flag or condition code (10_state.md R22). What stands in their place is the class of a
checked codeword and the `hit` of a locator: how they are put on the ports cls, p0 and p1 (30_encoding.md R63, R66). -/

namespace Sys2Proof.Machine

/-- The 2-bit class code (30_encoding.md R66). -/
def classCode : Verdict → BitVec 2
  | .none => 0b00
  | .single _ => 0b01
  | .double _ _ => 0b10
  | .unlocated => 0b11

/-- The index on port p0: 0 when the class reports no position (30_encoding.md R63). -/
def firstIndex : Verdict → BitVec 4
  | .none => 0
  | .single p => BitVec.ofNat 4 p
  | .double p _ => BitVec.ofNat 4 p
  | .unlocated => 0

/-- The index on port p1: DOUBLE only, 0 otherwise (30_encoding.md R63). -/
def secondIndex : Verdict → BitVec 4
  | .none => 0
  | .single _ => 0
  | .double _ p => BitVec.ofNat 4 p
  | .unlocated => 0

/-- The ports of HLOC, HCHK and SCHK: q is 0 (30_encoding.md R63). -/
def verdictPorts (v : Verdict) : Ports :=
  { q := 0, cls := classCode v, p0 := firstIndex v, p1 := secondIndex v }

/-- The ports of SLOC1: `cls[0]` is hit and `cls[1]` is 0 (30_encoding.md R63). -/
def hitPorts1 : Option Nat → Ports
  | some j => { q := 0, cls := 1, p0 := BitVec.ofNat 4 j, p1 := 0 }
  | none => { q := 0, cls := 0, p0 := 0, p1 := 0 }

/-- The ports of SLOC2: as SLOC1, with the second index on p1 (30_encoding.md R63). -/
def hitPorts2 : Option (Nat × Nat) → Ports
  | some (j, k) => { q := 0, cls := 1, p0 := BitVec.ofNat 4 j, p1 := BitVec.ofNat 4 k }
  | none => { q := 0, cls := 0, p0 := 0, p1 := 0 }

/-- The ports of an operation with a vector result and no class: the value in the low-order bits of q, the unused
high-order bits and the other ports 0 (30_encoding.md R63). -/
def vectorPorts {n : Nat} (v : BitVec n) : Ports :=
  { q := v.setWidth 16, cls := 0, p0 := 0, p1 := 0 }

end Sys2Proof.Machine
end

