-- ==== Sys2Proof/Machine/Operands.lean ====
section
/-! DEFINITION. The operand of each CW operation, taken from the low-order bits of port `a`; the unused high-order input
bits are ignored (30_encoding.md R63). Stream index i of an n-bit operand is wire n − 1 − i (R64), so the number on the
port is the number of 00_scope.md R8. -/

namespace Sys2Proof.Machine

/-- d in `a[7:0]`. -/
def dataOperand (o : Operands) : Byte := o.a.setWidth 8

/-- A Hamming codeword in `a[11:0]`. -/
def hamOperand (o : Operands) : BitVec 12 := o.a.setWidth 12

/-- A Hamming syndrome in `a[3:0]`. -/
def hamSynOperand (o : Operands) : BitVec 4 := o.a.setWidth 4

/-- A SECDED codeword in `a[15:0]`. -/
def secOperand (o : Operands) : BitVec 16 := o.a

/-- A SECDED syndrome in `a[7:0]`. -/
def secSynOperand (o : Operands) : Byte := o.a.setWidth 8

end Sys2Proof.Machine
end

