-- ==== Sys2Proof/Machine/Hamming.lean ====
section
/-! DEFINITION. The meanings of the Hamming(12,8) operations (41_hamming.md). None reads H or raises an exception. -/

namespace Sys2Proof.Machine

/-- HENC: q = HENC(d) (41_hamming.md R90). -/
def execHenc (s : State) : Host.Outcome State Fault Refusal :=
  .next (s.drive (vectorPorts (henc (dataOperand s.operands))))

/-- HSYN: q = HSYN(c) (41_hamming.md R92). -/
def execHsyn (s : State) : Host.Outcome State Fault Refusal :=
  .next (s.drive (vectorPorts (hsyn (hamOperand s.operands))))

/-- HLOC: cls and p0 of the syndrome (41_hamming.md R94). -/
def execHloc (s : State) : Host.Outcome State Fault Refusal :=
  .next (s.drive (verdictPorts (hloc s.cfg.hamEOor (hamSynOperand s.operands))))

/-- HCHK: cls and p0 of the codeword (41_hamming.md R95). -/
def execHchk (s : State) : Host.Outcome State Fault Refusal :=
  .next (s.drive (verdictPorts (hchk s.cfg.hamEOor (hamOperand s.operands))))

/-- HDEC: q = HDEC(c) (41_hamming.md R96). -/
def execHdec (s : State) : Host.Outcome State Fault Refusal :=
  .next (s.drive (vectorPorts (hdec (hamOperand s.operands))))

/-- encode: the transmitted buffer of the data (41_hamming.md R98). -/
def execEncode (s : State) : Host.Outcome State Fault Refusal :=
  .next (s.giveBack (.bytes (hamEncode s.operands.buf)))

/-- check: the error report of the transmitted buffer (41_hamming.md R100). -/
def execCheck (s : State) : Host.Outcome State Fault Refusal :=
  .next (s.giveBack (.report (hamCheck s.cfg.hamEOor s.operands.buf)))

/-- decode: the data of the transmitted buffer, nothing corrected (41_hamming.md R102). -/
def execDecode (s : State) : Host.Outcome State Fault Refusal :=
  .next (s.giveBack (.bytes (hamDecode s.operands.buf)))

end Sys2Proof.Machine
end

