-- ==== Sys2Proof/Machine/PatcherCode.lean ====
section
/-! DEFINITION. The error locator and patcher as functions on values (43_patcher.md R135 to R139). -/

namespace Sys2Proof.Machine

/-- `absBit = k·W + b` (43_patcher.md R135). -/
def absBit (W k b : Nat) : Nat := k * W + b

/-- The in-range test: the bit index inside the codeword, the byte inside the buffer (43_patcher.md R136). -/
def inRange (L W k b : Nat) : Bool := decide (b < W) && decide (absBit W k b / 8 < L)

/-- PATCH: the bit `7 − absBit % 8` of byte `absBit // 8` flipped if the pair is in range (43_patcher.md R137). -/
def patch (buf : Buffer) (W : Nat) (kb : ErrorPair) : Buffer :=
  let n := absBit W kb.1 kb.2
  if inRange buf.length W kb.1 kb.2 then
    memWrite buf (n / 8) (memRead buf (n / 8) ^^^ (1#8 <<< (7 - n % 8)))
  else buf

/-- The pairs of a fix list applied in list order (43_patcher.md R138, R139). -/
def applyFixes (W : Nat) (buf : Buffer) (errors : List ErrorPair) : Buffer :=
  errors.foldl (fun out kb => patch out W kb) buf

end Sys2Proof.Machine
end

