-- ==== Sys2Proof/Machine/Patcher.lean ====
section
/-! DEFINITION. The meanings of the patcher's operations (43_patcher.md). None reads H or raises an exception. -/

namespace Sys2Proof.Machine

/-- PATCH: one flip, or none when the pair is out of range (43_patcher.md R137). Run for every W, log entry 8. -/
def execPatch (s : State) : Host.Outcome State Fault Refusal :=
  .next (s.giveBack (.bytes (patch s.operands.buf s.operands.W s.operands.pair)))

/-- fixErrors: every pair of the list, width 12 (43_patcher.md R138). -/
def execFixErrors (s : State) : Host.Outcome State Fault Refusal :=
  .next (s.giveBack (.bytes (applyFixes 12 s.operands.buf s.operands.errors)))

/-- fixErrors2Bit: every pair of the list, width 16 (43_patcher.md R139). -/
def execFixErrors2Bit (s : State) : Host.Outcome State Fault Refusal :=
  .next (s.giveBack (.bytes (applyFixes 16 s.operands.buf s.operands.errors)))

end Sys2Proof.Machine
end

