-- ==== Sys2Proof/Machine/Secded.lean ====
section
/-! DEFINITION. The meanings of the SECDED(16,8) operations (42_secded.md). All but SDEC and decode2Bit read H. -/

namespace Sys2Proof.Machine

/-- SENC: q = SENC(d) (42_secded.md R110). -/
def execSenc (s : State) : Host.Outcome State Fault Refusal :=
  .next (s.drive (vectorPorts (senc s.cfg.H.cols (dataOperand s.operands))))

/-- SSYN: q = SSYN(c) (42_secded.md R112). -/
def execSsyn (s : State) : Host.Outcome State Fault Refusal :=
  .next (s.drive (vectorPorts (ssyn s.cfg.H.cols (secOperand s.operands))))

/-- SLOC1: hit and p0 (42_secded.md R114). -/
def execSloc1 (s : State) : Host.Outcome State Fault Refusal :=
  .next (s.drive (hitPorts1 (sloc1 s.cfg.H.cols (secSynOperand s.operands))))

/-- SLOC2: hit, p0 and p1 (42_secded.md R116). -/
def execSloc2 (s : State) : Host.Outcome State Fault Refusal :=
  .next (s.drive (hitPorts2 (sloc2 s.cfg.H.cols (secSynOperand s.operands))))

/-- SCHK: cls, p0 and p1 of the codeword (42_secded.md R118). -/
def execSchk (s : State) : Host.Outcome State Fault Refusal :=
  .next (s.drive (verdictPorts (schk s.cfg.H.cols (secOperand s.operands))))

/-- SDEC: q = SDEC(c) (42_secded.md R120). -/
def execSdec (s : State) : Host.Outcome State Fault Refusal :=
  .next (s.drive (vectorPorts (sdec (secOperand s.operands))))

/-- encode2Bit: the transmitted buffer of the data (42_secded.md R124). -/
def execEncode2Bit (s : State) : Host.Outcome State Fault Refusal :=
  .next (s.giveBack (.bytes (secEncode s.cfg.H.cols s.operands.buf)))

/-- check2Bit: the error report of the transmitted buffer (42_secded.md R126). -/
def execCheck2Bit (s : State) : Host.Outcome State Fault Refusal :=
  .next (s.giveBack (.report (secCheck s.cfg.H.cols s.operands.buf)))

/-- decode2Bit: the data of the transmitted buffer, nothing corrected (42_secded.md R128). -/
def execDecode2Bit (s : State) : Host.Outcome State Fault Refusal :=
  .next (s.giveBack (.bytes (secDecode s.operands.buf)))

end Sys2Proof.Machine
end

