-- ==== Sys2Proof/Machine/Dispatch.lean ====
section
/-! DEFINITION. One arm per operation of 30_encoding.md R62. -/

namespace Sys2Proof.Machine

def exec (i : Instr) (s : State) : Host.Outcome State Fault Refusal :=
  match i with
  | .henc => Sys2Proof.Machine.execHenc s
  | .hsyn => Sys2Proof.Machine.execHsyn s
  | .hloc => Sys2Proof.Machine.execHloc s
  | .hchk => Sys2Proof.Machine.execHchk s
  | .hdec => Sys2Proof.Machine.execHdec s
  | .senc => Sys2Proof.Machine.execSenc s
  | .ssyn => Sys2Proof.Machine.execSsyn s
  | .sloc1 => Sys2Proof.Machine.execSloc1 s
  | .schk => Sys2Proof.Machine.execSchk s
  | .sdec => Sys2Proof.Machine.execSdec s
  | .sloc2 => Sys2Proof.Machine.execSloc2 s
  | .encode => Sys2Proof.Machine.execEncode s
  | .check => Sys2Proof.Machine.execCheck s
  | .fixErrors => Sys2Proof.Machine.execFixErrors s
  | .decode => Sys2Proof.Machine.execDecode s
  | .b2g => Sys2Proof.Machine.execB2g s
  | .pack => Sys2Proof.Machine.execPack s
  | .patch => Sys2Proof.Machine.execPatch s
  | .encode2Bit => Sys2Proof.Machine.execEncode2Bit s
  | .check2Bit => Sys2Proof.Machine.execCheck2Bit s
  | .fixErrors2Bit => Sys2Proof.Machine.execFixErrors2Bit s
  | .decode2Bit => Sys2Proof.Machine.execDecode2Bit s

end Sys2Proof.Machine
end

