-- ==== Sys2Proof/Machine/Step.lean ====
section
/-! DEFINITION. One step: the transaction the caller presents, performed whole (30_encoding.md R60, 92_eei_decisions.md
D1). -/

namespace Sys2Proof.Machine

/-- A step performs the presented operation on the presented operands; a reserved number is refused (30_encoding.md R71);
with no operation presented nothing is performed (log entry 5). -/
def step (s : State) : Host.Outcome State Fault Refusal :=
  match s.op with
  | none => .next s.idle
  | some op =>
    match decode op with
    | .ok i => exec i s
    | .error (.reserved op) => .refused (.reservedOperation op)

/-- The machine does not fetch: the caller presents the operation (10_state.md R21). Presenting the word's operation number
is all a next step needs; the ports, which a step does not read, stay as they are (log entry 10). -/
def State.withFetchWord (s : State) (_nbits w : Nat) : State := { s with op := some (opOfWord w) }

end Sys2Proof.Machine
end

