-- ==== Sys2Proof/Machine/Reception.lean ====
section
/-! DEFINITION. The placement rules of a buffer read as formulas (20_memory.md R42, R43), and the composite forms of
30_encoding.md R72 as sequences of transactions of the machine. -/

namespace Sys2Proof.Machine

/-- Stream bit n of a buffer: bit `7 − n % 8` of byte `n // 8` (20_memory.md R42). -/
def streamBit (buf : Buffer) (n : Nat) : Bool := (buf.getD (n / 8) 0).getLsbD (7 - n % 8)

/-- Codeword k of width W of a transmitted buffer: stream bits k·W to k·W + W − 1 (20_memory.md R43). -/
def codewordAt (W : Nat) (buf : Buffer) (k : Nat) : BitVec W := ofBits W fun b => streamBit buf (k * W + b)

/-- One transaction: the caller presents an operation with its operands, and the machine makes a step. -/
def transact (s : State) (i : Instr) (o : Operands) : Host.Outcome State Fault Refusal :=
  step (s.present (encode i) o)

/-- The bytes a transaction returned, with the state it left. -/
def bytesReturned : Host.Outcome State Fault Refusal → Option (State × Buffer)
  | .next t => match t.returned with
    | some (.bytes b) => some (t, b)
    | some (.report _) => none
    | some (.groups _) => none
    | none => none
  | .fault _ => none
  | .refused _ => none

/-- The report a transaction returned, with the state it left. -/
def reportReturned : Host.Outcome State Fault Refusal → Option (State × List ErrorPair)
  | .next t => match t.returned with
    | some (.report r) => some (t, r)
    | some (.bytes _) => none
    | some (.groups _) => none
    | none => none
  | .fault _ => none
  | .refused _ => none

/-- Three transactions, check, fix and decode, on a received buffer: the report, the corrected buffer and the data
(30_encoding.md R72, R73; fixErrors with an empty report returns its operand, so it is issued always). -/
def reception (inspect fix extract : Instr) (s : State) (o : Operands) (t : Buffer) :
    Option (List ErrorPair × Buffer × Buffer) :=
  (reportReturned (transact s inspect { o with buf := t })).bind fun sr =>
    (bytesReturned (transact sr.1 fix { o with buf := t, errors := sr.2 })).bind fun su =>
      (bytesReturned (transact su.1 extract { o with buf := su.2 })).map fun sb => (sr.2, su.2, sb.2)

/-- `recv(t) = decode(fixErrors(t, check(t)))` (30_encoding.md R72), with the report and the corrected buffer. -/
def recv (s : State) (o : Operands) (t : Buffer) : Option (List ErrorPair × Buffer × Buffer) :=
  reception .check .fixErrors .decode s o t

/-- `recv2Bit(t) = decode2Bit(fixErrors2Bit(t, check2Bit(t)))` (30_encoding.md R72). -/
def recv2Bit (s : State) (o : Operands) (t : Buffer) : Option (List ErrorPair × Buffer × Buffer) :=
  reception .check2Bit .fixErrors2Bit .decode2Bit s o t

end Sys2Proof.Machine
end

