-- ==== Sys2Proof/WellFormed.lean ====
section
/-! DEFINITION. Which operands an operation's rule admits. Bits, bytes, port widths and the sign of indices are right by
their types (60_exceptions.md R146, 30_encoding.md R67); two conditions on natural numbers remain. -/

namespace Sys2Proof

/-- The operands are of the kind the operation's rule asks for: B2G takes a group size g ≥ 1 (40_bitstream_adapter.md
R80), PATCH a codeword width 12 or 16 (43_patcher.md R137). -/
def wellFormed (i : Instr) (o : Operands) : Bool :=
  match i with
  | .b2g => decide (1 ≤ o.g)
  | .patch => decide (o.W = 12 ∨ o.W = 16)
  | .henc | .hsyn | .hloc | .hchk | .hdec => true
  | .senc | .ssyn | .sloc1 | .schk | .sdec | .sloc2 => true
  | .encode | .check | .fixErrors | .decode | .pack => true
  | .encode2Bit | .check2Bit | .fixErrors2Bit | .decode2Bit => true

end Sys2Proof
end

