-- ==== Sys2Proof/Safety.lean ====
section
/-! DEFINITION. Runs, what counts as a safe step, and the terms claims are stated in (70_reset_and_hazards.md R175, R176;
60_exceptions.md R150). -/

namespace Sys2Proof.Machine

/-- What the caller presents passes the boundary: no operation, or an operation number of the table with a group size of
at least 1 if it is B2G's (60_exceptions.md R150). That nothing presented, and PATCH with W other than 12 and 16, pass too
is the model's choice (log entries 5 and 8). -/
def accepted (s : State) : Bool :=
  match s.op with
  | none => true
  | some op =>
    match decode op with
    | .ok i => decide (i = .b2g → 1 ≤ s.operands.g)
    | .error _ => false

/-- A run: steps of the machine, and between them the caller presenting an operation or none (70_reset_and_hazards.md
R175, R176). -/
inductive Run : State → State → Prop
  | start (s : State) : Run s s
  | step {s t u : State} : Run s t → Machine.step t = .next u → Run s u
  | present {s t : State} (op : BitVec 5) (o : Operands) : Run s t → Run s (t.present op o)
  | withdraw {s t : State} : Run s t → Run s t.withdraw

/-- The outcome is the next state in which the ports carry p, nothing is returned, and everything else is as in s: the
result of a CW operation with its frame. -/
def drives (x : Host.Outcome State Fault Refusal) (s : State) (p : Ports) : Prop :=
  x = .next { s with out := p, returned := none }

/-- The outcome is a next state in which r is returned, the CW ports show some value and one more free port value is drawn,
and everything else is as in s: the result of a BUF operation with its frame. -/
def givesBack (x : Host.Outcome State Fault Refusal) (s : State) (r : Returned) : Prop :=
  ∃ p, x = .next { s with out := p, returned := some r, drawn := s.drawn + 1 }

/-- Entries in ascending codeword index, and within a codeword in ascending bit index (92_eei_decisions.md D11). -/
def ascending (r : List ErrorPair) : Prop := r.Pairwise fun x y => x.1 < y.1 ∨ x.1 = y.1 ∧ x.2 < y.2

/-- The returned value has the form its operation's rule gives it: a report is ascending, with at most two entries per
codeword and bit indices below 16; groups are of one length g ≥ 1 (41_hamming.md R100, 42_secded.md R126,
40_bitstream_adapter.md R80). -/
def ResultsInv (s : State) : Prop :=
  (∀ r, s.returned = some (.report r) →
    ascending r ∧ (∀ x ∈ r, x.2 < 16) ∧ ∀ k, (r.filter fun x => x.1 == k).length ≤ 2) ∧
  ∀ gs, s.returned = some (.groups gs) → ∃ g, 1 ≤ g ∧ ∀ x ∈ gs, x.length = g

end Sys2Proof.Machine
end

