-- ==== Sys2Proof/Certificates/Slice0/Obligations.lean ====
section
/-! DEFINITION. The statements for the provers. Each docstring names the rule of spec/ it formalises. A free port value of
`Config.freePorts` occurs in no statement: where the ports carry no result, the statement says only that they show some
value. -/

open Sys2Proof Sys2Proof.Machine

/-! ### Operation numbers and the step -/

/-- 30_encoding.md R61 against R62: the decoder, read from the fields, and the encoder, read from the table, agree. -/
def Obligations.DecodeInvertsEncode : Prop :=
  (∀ i : Instr, decode (encode i) = .ok i) ∧
  ∀ (op : BitVec 5) (i : Instr), decode op = .ok i → encode i = op

/-- Words of the table 30_encoding.md R62, one per family, read by the decoder. -/
def Obligations.TableWordsDecode : Prop :=
  decodeTableWord 8 0b00000 = some .henc ∧ decodeTableWord 8 0b00100 = some .hdec ∧
  decodeTableWord 8 0b01011 = some .schk ∧ decodeTableWord 8 0b01101 = some .sloc2 ∧
  decodeTableWord 8 0b10001 = some .check ∧ decodeTableWord 8 0b10100 = some .b2g ∧
  decodeTableWord 8 0b10110 = some .patch ∧ decodeTableWord 8 0b11011 = some .decode2Bit

/-- 30_encoding.md R71: exactly the ten reserved numbers select no operation, and the machine refuses them. -/
def Obligations.ReservedNumbersAreRefused : Prop :=
  ∀ (s : State) (op : BitVec 5),
    (op.toNat ∈ [5, 6, 7, 14, 15, 23, 28, 29, 30, 31] ↔ ∀ i : Instr, decode op ≠ .ok i) ∧
    (s.op = some op → op.toNat ∈ [5, 6, 7, 14, 15, 23, 28, 29, 30, 31] →
      step s = .refused (.reservedOperation op))

/-- 30_encoding.md R60: a step with an operation number of the table presented performs that operation, and adds nothing
around it. -/
def Obligations.StepRunsThePresentedOperation : Prop :=
  ∀ (s : State) (op : BitVec 5) (i : Instr), s.op = some op → decode op = .ok i → step s = exec i s

/-- The model's choice (log entry 5): with no operation presented a step performs none; the configuration and what is
presented stay, nothing is returned, and the ports show some value (93_implementation_defined.md U10). -/
def Obligations.StepWithNothingPresentedIdles : Prop :=
  ∀ s : State, s.op = none → ∃ p, step s = .next { s with out := p, returned := none, drawn := s.drawn + 1 }

/-- 60_exceptions.md R150: a step answers a next state for everything the boundary accepts, and otherwise refuses, by a
reserved number or by g = 0 for B2G, and never for another reason. Two cases of `accepted` are no part of R150 but the
model's choices: that a step with nothing presented is a next state (DESIGN CHOICE, log entry 5), and that PATCH with W
other than 12 and 16 is accepted and runs (DESIGN CHOICE, log entry 8). -/
def Obligations.StepStopsOnlyAtTheBoundary : Prop :=
  ∀ s : State,
    (accepted s = true → ∃ t, step s = .next t) ∧
    (accepted s = false →
      (∃ op, s.op = some op ∧ (∀ i : Instr, decode op ≠ .ok i) ∧ step s = .refused (.reservedOperation op)) ∨
      (s.op = some (encode .b2g) ∧ s.operands.g = 0 ∧ step s = .refused .groupSizeZero))

/-- 70_reset_and_hazards.md R173, 00_scope.md R12: every operation on operands of the kind its rule asks for completes;
and whatever its operands, an operation that completes leaves the configuration and everything presented as they were
(20_memory.md R48, R53), returning a value exactly in format BUF (30_encoding.md R61). -/
def Obligations.OperationsCompleteAndKeepTheirInputs : Prop :=
  (∀ (i : Instr) (s : State), wellFormed i s.operands = true → ∃ t, exec i s = .next t) ∧
  ∀ (i : Instr) (s t : State), exec i s = .next t →
    t.cfg = s.cfg ∧ t.op = s.op ∧ t.operands = s.operands ∧ t.returned.isSome = i.isBuf ∧
    t.drawn = s.drawn + (if i.isBuf then 1 else 0)

/-- 20_memory.md R51, 42_secded.md head, 41_hamming.md R94: the results are a function of the operands, of H for the seven
operations that read it, and of HAM_E_OOR for the three that read it, and of nothing else in the state. -/
def Obligations.ResultsDependOnlyOnWhatIsRead : Prop :=
  ∀ (i : Instr) (s u t : State), s.operands = u.operands →
    (i ∈ [Instr.senc, .ssyn, .sloc1, .sloc2, .schk, .encode2Bit, .check2Bit] → s.cfg.H = u.cfg.H) →
    (i ∈ [Instr.hloc, .hchk, .check] → s.cfg.hamEOor = u.cfg.hamEOor) →
    exec i s = .next t →
    ∃ v, exec i u = .next v ∧ v.returned = t.returned ∧ (i.isBuf = false → v.out = t.out)

/-- 30_encoding.md R63, 93_implementation_defined.md U11: bits of port `a` above the operand's width have no influence. -/
def Obligations.UnusedInputBitsAreIgnored : Prop :=
  ∀ iw ∈ [(Instr.henc, 8), (.hsyn, 12), (.hloc, 4), (.hchk, 12), (.hdec, 12), (.senc, 8), (.sloc1, 8), (.sloc2, 8)],
    ∀ (s : State) (a : BitVec 16), (∀ n < iw.2, a.getLsbD n = s.operands.a.getLsbD n) →
      ∃ t u, exec iw.1 s = .next t ∧ exec iw.1 { s with operands := { s.operands with a := a } } = .next u ∧
        u.out = t.out

/-- 30_encoding.md R63, R66: unused output bits and ports are 0, p0 is 0 when no position is reported, p1 is 0 but for
DOUBLE, and p0 < p1 for a pair. -/
def Obligations.UnusedOutputBitsAreZero : Prop :=
  ∀ (s t : State) (i : Instr), exec i s = .next t →
    (∀ w, (i, w) ∈ [(Instr.henc, 12), (.hsyn, 4), (.hdec, 8), (.senc, 16), (.ssyn, 8), (.sdec, 8)] →
      (∀ n, w ≤ n → t.out.q.getLsbD n = false) ∧ t.out.cls = 0 ∧ t.out.p0 = 0 ∧ t.out.p1 = 0) ∧
    (i ∈ [Instr.hloc, .hchk, .schk] →
      t.out.q = 0 ∧ (t.out.cls = 0 ∨ t.out.cls = 3 → t.out.p0 = 0) ∧ (t.out.cls ≠ 2 → t.out.p1 = 0) ∧
      (t.out.cls = 2 → i = .schk ∧ t.out.p0 < t.out.p1)) ∧
    (i ∈ [Instr.sloc1, .sloc2] →
      t.out.q = 0 ∧ t.out.cls.getLsbD 1 = false ∧ (t.out.cls = 0 → t.out.p0 = 0 ∧ t.out.p1 = 0) ∧
      (i = .sloc1 → t.out.p1 = 0) ∧ (i = .sloc2 → t.out.cls = 1 → t.out.p0 < t.out.p1))

/-! ### The Hamming(12,8) code, one codeword -/

/-- 41_hamming.md R91: HENC written out, on the wires of 30_encoding.md R68; with d⟨i⟩ on wire 7 − i of port `a`. -/
def Obligations.HencInsertsTheParityBits : Prop :=
  ∀ s : State, ∃ q : BitVec 16, drives (exec .henc s) s { q := q, cls := 0, p0 := 0, p1 := 0 } ∧
    let d (i : Nat) : Bool := s.operands.a.getLsbD (7 - i)
    q.getLsbD 11 = (d 0 ^^ d 1 ^^ d 3 ^^ d 4 ^^ d 6) ∧
    q.getLsbD 10 = (d 0 ^^ d 2 ^^ d 3 ^^ d 5 ^^ d 6) ∧
    q.getLsbD 9 = d 0 ∧
    q.getLsbD 8 = (d 1 ^^ d 2 ^^ d 3 ^^ d 7) ∧
    q.getLsbD 7 = d 1 ∧ q.getLsbD 6 = d 2 ∧ q.getLsbD 5 = d 3 ∧
    q.getLsbD 4 = (d 4 ^^ d 5 ^^ d 6 ^^ d 7) ∧
    q.getLsbD 3 = d 4 ∧ q.getLsbD 2 = d 5 ∧ q.getLsbD 1 = d 6 ∧ q.getLsbD 0 = d 7 ∧
    ∀ n, 12 ≤ n → q.getLsbD n = false

/-- 41_hamming.md R92: the four checks written out; c⟨b⟩ is wire 11 − b of port `a` (30_encoding.md R64), and the check of
position 1, 2, 4, 8 is on bit 0, 1, 2, 3 of e. -/
def Obligations.HsynTakesTheFourChecks : Prop :=
  ∀ s : State, ∃ q : BitVec 16, drives (exec .hsyn s) s { q := q, cls := 0, p0 := 0, p1 := 0 } ∧
    let c (b : Nat) : Bool := s.operands.a.getLsbD (11 - b)
    q.getLsbD 0 = (c 0 ^^ c 2 ^^ c 4 ^^ c 6 ^^ c 8 ^^ c 10) ∧
    q.getLsbD 1 = (c 1 ^^ c 2 ^^ c 5 ^^ c 6 ^^ c 9 ^^ c 10) ∧
    q.getLsbD 2 = (c 3 ^^ c 4 ^^ c 5 ^^ c 6 ^^ c 11) ∧
    q.getLsbD 3 = (c 7 ^^ c 8 ^^ c 9 ^^ c 10 ^^ c 11) ∧
    ∀ n, 4 ≤ n → q.getLsbD n = false

/-- 41_hamming.md R93: linearity, unit words, valid codewords, flips and their counts, and the number of words of each
syndrome. -/
def Obligations.HsynLaws : Prop :=
  let pairs := (List.range 12).flatMap fun b => (List.range b).map fun a => [a, b]
  let triples := pairs.flatMap fun p => (List.range (p.headD 0)).map fun a => a :: p
  (∀ c c' : BitVec 12, hsyn (c ^^^ c') = hsyn c ^^^ hsyn c') ∧
  (∀ b < 12, hsyn (unitAt 12 b) = BitVec.ofNat 4 (b + 1)) ∧
  (∀ d : Byte, hsyn (henc d) = 0) ∧
  (∀ (d : Byte) (F : List Nat), (∀ b ∈ F, b < 12) →
    hsyn (flipAt (henc d) F) = F.foldl (fun e b => e ^^^ BitVec.ofNat 4 (b + 1)) 0) ∧
  (∀ (d : Byte), ∀ b < 12, ∀ a < b,
    hsyn (flipAt (henc d) [a, b]) ≠ 0 ∧ hsyn (flipAt (henc d) [a, b]) ≠ BitVec.ofNat 4 (a + 1) ∧
    hsyn (flipAt (henc d) [a, b]) ≠ BitVec.ofNat 4 (b + 1)) ∧
  (∀ d : Byte,
    pairs.length = 66 ∧ (pairs.filter fun F => (hsyn (flipAt (henc d) F)).toNat ≤ 12).length = 51 ∧
    (pairs.filter fun F => 13 ≤ (hsyn (flipAt (henc d) F)).toNat).length = 15 ∧
    triples.length = 220 ∧ (triples.filter fun F => hsyn (flipAt (henc d) F) = 0).length = 17) ∧
  ∀ e : BitVec 4, ((List.range 4096).filter fun c => hsyn (BitVec.ofNat 12 c) = e).length = 256

/-- 41_hamming.md R94 on every syndrome, under both values of HAM_E_OOR. -/
def Obligations.HlocLocatesThePosition : Prop :=
  ∀ (s : State) (e : Nat), e = (s.operands.a.setWidth 4).toNat →
    (e = 0 → drives (exec .hloc s) s { q := 0, cls := 0b00, p0 := 0, p1 := 0 }) ∧
    (1 ≤ e → e ≤ 12 → drives (exec .hloc s) s { q := 0, cls := 0b01, p0 := BitVec.ofNat 4 (e - 1), p1 := 0 }) ∧
    (13 ≤ e → s.cfg.hamEOor = .report →
      drives (exec .hloc s) s { q := 0, cls := 0b01, p0 := BitVec.ofNat 4 (e - 1), p1 := 0 }) ∧
    (13 ≤ e → s.cfg.hamEOor = .drop → drives (exec .hloc s) s { q := 0, cls := 0b11, p0 := 0, p1 := 0 })

/-- 41_hamming.md R95: HCHK(c) = HLOC(HSYN(c)), as three transactions. -/
def Obligations.HchkIsHlocAfterHsyn : Prop :=
  ∀ s : State, ∃ (e : BitVec 16) (p : Ports),
    drives (exec .hsyn s) s { q := e, cls := 0, p0 := 0, p1 := 0 } ∧
    drives (exec .hloc { s with operands := { s.operands with a := e } })
      { s with operands := { s.operands with a := e } } p ∧
    drives (exec .hchk s) s p

/-- 41_hamming.md R96: the eight data positions in order, on wires; and what R96 says follows: data come back from their
codeword, a flip at a parity index does not show, a flip at a data index flips that data bit. -/
def Obligations.HdecExtractsTheData : Prop :=
  (∀ s : State, ∃ q : BitVec 16, drives (exec .hdec s) s { q := q, cls := 0, p0 := 0, p1 := 0 } ∧
    let c (b : Nat) : Bool := s.operands.a.getLsbD (11 - b)
    q.getLsbD 7 = c 2 ∧ q.getLsbD 6 = c 4 ∧ q.getLsbD 5 = c 5 ∧ q.getLsbD 4 = c 6 ∧
    q.getLsbD 3 = c 8 ∧ q.getLsbD 2 = c 9 ∧ q.getLsbD 1 = c 10 ∧ q.getLsbD 0 = c 11 ∧
    ∀ n, 8 ≤ n → q.getLsbD n = false) ∧
  (∀ d : Byte, hdec (henc d) = d) ∧
  (∀ c : BitVec 12, ∀ b ∈ [0, 1, 3, 7], hdec (flipAt c [b]) = hdec c) ∧
  ∀ c : BitVec 12, ∀ i < 8, hdec (flipAt c [[2, 4, 5, 6, 8, 9, 10, 11].getD i 0]) = flipAt (hdec c) [i]

/-- 41_hamming.md R93 (c), (d), R95: HCHK of a codeword as sent answers NONE, and of a codeword with one bit flipped
SINGLE at that bit, whatever HAM_E_OOR. -/
def Obligations.HchkLocatesASingleFlip : Prop :=
  ∀ (s : State) (d : Byte),
    (s.operands.a.setWidth 12 = henc d → drives (exec .hchk s) s { q := 0, cls := 0b00, p0 := 0, p1 := 0 }) ∧
    ∀ b < 12, s.operands.a.setWidth 12 = flipAt (henc d) [b] →
      drives (exec .hchk s) s { q := 0, cls := 0b01, p0 := BitVec.ofNat 4 b, p1 := 0 }

/-! ### The SECDED(16,8) code, one codeword -/

/-- 42_secded.md R110: the data byte unchanged, then the exclusive or of the columns of the data bits that are 1. -/
def Obligations.SencAppendsTheParityByte : Prop :=
  ∀ (s : State) (d : Byte), d = s.operands.a.setWidth 8 →
    drives (exec .senc s) s
      { q := d ++ (List.range 8).foldl (fun p j => if d.getMsbD j then p ^^^ col s.cfg.H.cols j else p) 0#8
        cls := 0, p0 := 0, p1 := 0 }

/-- 42_secded.md R112: the exclusive or of the columns of the codeword bits that are 1. -/
def Obligations.SsynSumsTheColumns : Prop :=
  ∀ s : State, drives (exec .ssyn s) s
    { q := ((List.range 16).foldl
        (fun y j => if s.operands.a.getMsbD j then y ^^^ col s.cfg.H.cols j else y) 0#8).setWidth 16
      cls := 0, p0 := 0, p1 := 0 }

/-- 42_secded.md R113: linearity, zero on valid codewords, flips, and the valid codewords as a set. -/
def Obligations.SsynLaws : Prop :=
  ∀ H : ParityMatrix,
    (∀ c c' : BitVec 16, ssyn H.cols (c ^^^ c') = ssyn H.cols c ^^^ ssyn H.cols c') ∧
    (∀ d : Byte, ssyn H.cols (senc H.cols d) = 0) ∧
    (∀ (d : Byte) (F : List Nat), (∀ j ∈ F, j < 16) →
      ssyn H.cols (flipAt (senc H.cols d) F) = F.foldl (fun y j => y ^^^ col H.cols j) 0) ∧
    (∀ d d' : Byte, ∃ d'', senc H.cols d ^^^ senc H.cols d' = senc H.cols d'') ∧
    ∀ d : Byte, senc H.cols d ≠ 0 → sdec (senc H.cols d) ≠ 0

/-- 42_secded.md R114: SLOC1 hits exactly on the columns, at the column's own index, and misses on 0. -/
def Obligations.Sloc1MatchesTheColumn : Prop :=
  ∀ (s : State) (y : Byte), y = s.operands.a.setWidth 8 →
    (∀ j < 16, col s.cfg.H.cols j = y →
      drives (exec .sloc1 s) s { q := 0, cls := 1, p0 := BitVec.ofNat 4 j, p1 := 0 }) ∧
    ((∀ j < 16, col s.cfg.H.cols j ≠ y) → drives (exec .sloc1 s) s { q := 0, cls := 0, p0 := 0, p1 := 0 }) ∧
    (y = 0 → drives (exec .sloc1 s) s { q := 0, cls := 0, p0 := 0, p1 := 0 })

/-- 42_secded.md R116: SLOC2 hits exactly on the sums of two columns, at the least pair in the order (0,1), (0,2), …,
(14,15), and misses on 0; with V4 at whichever pair it is. -/
def Obligations.Sloc2FindsTheLeastPair : Prop :=
  ∀ (s : State) (y : Byte), y = s.operands.a.setWidth 8 →
    (∀ k < 16, ∀ j < k, col s.cfg.H.cols j ^^^ col s.cfg.H.cols k = y →
      ((∀ k' < 16, ∀ j' < k', (j' < j ∨ j' = j ∧ k' < k) → col s.cfg.H.cols j' ^^^ col s.cfg.H.cols k' ≠ y) ∨
        V4 s.cfg.H.cols) →
      drives (exec .sloc2 s) s { q := 0, cls := 1, p0 := BitVec.ofNat 4 j, p1 := BitVec.ofNat 4 k }) ∧
    ((∀ k < 16, ∀ j < k, col s.cfg.H.cols j ^^^ col s.cfg.H.cols k ≠ y) →
      drives (exec .sloc2 s) s { q := 0, cls := 0, p0 := 0, p1 := 0 }) ∧
    (y = 0 → drives (exec .sloc2 s) s { q := 0, cls := 0, p0 := 0, p1 := 0 })

/-- 42_secded.md R118, 60_exceptions.md R152: zero syndrome, then a column, then the least pair, then UNLOCATED. -/
def Obligations.SchkTestsInOrder : Prop :=
  ∀ (s : State) (y : Byte), y = ssyn s.cfg.H.cols s.operands.a →
    (y = 0 → drives (exec .schk s) s { q := 0, cls := 0b00, p0 := 0, p1 := 0 }) ∧
    (∀ j < 16, col s.cfg.H.cols j = y →
      drives (exec .schk s) s { q := 0, cls := 0b01, p0 := BitVec.ofNat 4 j, p1 := 0 }) ∧
    (y ≠ 0 → (∀ m < 16, col s.cfg.H.cols m ≠ y) →
      (∀ k < 16, ∀ j < k, col s.cfg.H.cols j ^^^ col s.cfg.H.cols k = y →
        (∀ k' < 16, ∀ j' < k', (j' < j ∨ j' = j ∧ k' < k) → col s.cfg.H.cols j' ^^^ col s.cfg.H.cols k' ≠ y) →
        drives (exec .schk s) s { q := 0, cls := 0b10, p0 := BitVec.ofNat 4 j, p1 := BitVec.ofNat 4 k }) ∧
      ((∀ k < 16, ∀ j < k, col s.cfg.H.cols j ^^^ col s.cfg.H.cols k ≠ y) →
        drives (exec .schk s) s { q := 0, cls := 0b11, p0 := 0, p1 := 0 }))

/-- 42_secded.md R120: the first eight bits of the codeword, and data come back from their codeword for every H. -/
def Obligations.SdecTakesTheDataByte : Prop :=
  (∀ s : State, drives (exec .sdec s) s
    { q := (s.operands.a.extractLsb' 8 8).setWidth 16, cls := 0, p0 := 0, p1 := 0 }) ∧
  (∀ (H : Columns) (d : Byte), sdec (senc H d) = d) ∧
  ∀ (c : BitVec 16), ∀ b < 16, 8 ≤ b → sdec (flipAt c [b]) = sdec c

/-- 42_secded.md R122, the first four rows of its table: SCHK of a valid codeword with no, one or two bits flipped. -/
def Obligations.SchkOnAFlippedCodeword : Prop :=
  ∀ (s : State) (d : Byte),
    let H := s.cfg.H.cols
    let received (F : List Nat) : State := { s with operands := { s.operands with a := flipAt (senc H d) F } }
    drives (exec .schk (received [])) (received []) { q := 0, cls := 0b00, p0 := 0, p1 := 0 } ∧
    (∀ a < 16, drives (exec .schk (received [a])) (received [a])
      { q := 0, cls := 0b01, p0 := BitVec.ofNat 4 a, p1 := 0 }) ∧
    (∀ b < 16, ∀ a < b, ∀ m < 16, col H m = col H a ^^^ col H b →
      m ≠ a ∧ m ≠ b ∧ drives (exec .schk (received [a, b])) (received [a, b])
        { q := 0, cls := 0b01, p0 := BitVec.ofNat 4 m, p1 := 0 }) ∧
    ∀ b < 16, ∀ a < b, (∀ m < 16, col H m ≠ col H a ^^^ col H b) →
      ∃ k < 16, ∃ j < k, col H j ^^^ col H k = col H a ^^^ col H b ∧
        (∀ k' < 16, ∀ j' < k', (j' < j ∨ j' = j ∧ k' < k) → col H j' ^^^ col H k' ≠ col H a ^^^ col H b) ∧
        ((j = a ∧ k = b) ∨ (j ≠ a ∧ j ≠ b ∧ k ≠ a ∧ k ≠ b)) ∧
        (V4 H → j = a ∧ k = b) ∧
        drives (exec .schk (received [a, b])) (received [a, b])
          { q := 0, cls := 0b10, p0 := BitVec.ofNat 4 j, p1 := BitVec.ofNat 4 k }

/-- 42_secded.md R122, 10_state.md R28: with V3 and V4, 136 of the 255 non-zero syndromes are located and 119 are not. -/
def Obligations.LocatedSyndromesUnderV3V4 : Prop :=
  ∀ H : ParityMatrix, V3 H.cols → V4 H.cols →
    let located (y : Nat) : Bool :=
      (sloc1 H.cols (BitVec.ofNat 8 y)).isSome || (sloc2 H.cols (BitVec.ofNat 8 y)).isSome
    ((List.range 256).filter fun y => y != 0 && located y).length = 136 ∧
    ((List.range 256).filter fun y => y != 0 && !located y).length = 119

/-- 10_state.md R26: V2 says that R fixes every column of P (`(I ^ R)·P = 0`), and `R = I` is sufficient. The word with
data byte 0 and parity byte x has the syndrome R·x. -/
def Obligations.V2MeansRFixesP : Prop :=
  ∀ H : Columns,
    (V2 H ↔ ∀ j < 8, ssyn H ((col H j).setWidth 16) = col H j) ∧
    ((∀ r < 8, col H (8 + r) = unitAt 8 r) → V2 H)

/-- 10_state.md R26: zero syndrome means valid codeword exactly when R is invertible, which for a square matrix is that
no non-zero x has R·x = 0. -/
def Obligations.ZeroSyndromeIsValidIffRInvertible : Prop :=
  ∀ H : ParityMatrix,
    (∀ c : BitVec 16, ssyn H.cols c = 0 → ∃ d : Byte, c = senc H.cols d) ↔
    ∀ x : Byte, ssyn H.cols (x.setWidth 16) = 0 → x = 0

/-- 41_hamming.md R90, 42_secded.md R110, corner cases: both encoders are linear over GF(2) and injective, and send 0 to
0. -/
def Obligations.EncodersAreLinearAndInjective : Prop :=
  (∀ d d' : Byte, henc (d ^^^ d') = henc d ^^^ henc d') ∧ (∀ d d' : Byte, henc d = henc d' → d = d') ∧ henc 0 = 0 ∧
  ∀ H : Columns, (∀ d d' : Byte, senc H (d ^^^ d') = senc H d ^^^ senc H d') ∧
    (∀ d d' : Byte, senc H d = senc H d' → d = d') ∧ senc H 0 = 0

/-! ### The bit-stream adapter -/

/-- 40_bitstream_adapter.md R80: for g ≥ 1, `(8·L) // g` groups of g bits, bit i of group m being stream bit m·g + i; for
g = 0 a refusal. -/
def Obligations.B2gCutsTheStream : Prop :=
  ∀ s : State,
    (1 ≤ s.operands.g → ∃ gs, givesBack (exec .b2g s) s (.groups gs) ∧
      gs.length = 8 * s.operands.buf.length / s.operands.g ∧
      ∀ m < gs.length, (gs.getD m []).length = s.operands.g ∧
        ∀ i < s.operands.g, (gs.getD m []).getD i false = streamBit s.operands.buf (m * s.operands.g + i)) ∧
    (s.operands.g = 0 → exec .b2g s = .refused .groupSizeZero)

/-- 40_bitstream_adapter.md R81: `ceil(T/8)` bytes, whose stream is the concatenated groups and then zero bits. -/
def Obligations.PackConcatenatesAndPads : Prop :=
  ∀ s : State, ∃ out, givesBack (exec .pack s) s (.bytes out) ∧
    out.length = (s.operands.groups.flatten.length + 7) / 8 ∧
    ∀ n < 8 * out.length, streamBit out n =
      if n < s.operands.groups.flatten.length then s.operands.groups.flatten.getD n false else false

/-- 40_bitstream_adapter.md R82: `PACK(B2G(b, 8)) = b`, and for general g the first bytes of b with the bits after the last
group cleared; as two transactions. -/
def Obligations.PackAfterB2g : Prop :=
  ∀ s : State, 1 ≤ s.operands.g → ∃ gs out,
    givesBack (exec .b2g s) s (.groups gs) ∧
    givesBack (exec .pack { s with operands := { s.operands with groups := gs } })
      { s with operands := { s.operands with groups := gs } } (.bytes out) ∧
    (s.operands.g = 8 → out = s.operands.buf) ∧
    out.length = (s.operands.g * (8 * s.operands.buf.length / s.operands.g) + 7) / 8 ∧
    ∀ n < 8 * out.length, streamBit out n =
      if n < s.operands.g * (8 * s.operands.buf.length / s.operands.g) then streamBit s.operands.buf n else false

/-- 40_bitstream_adapter.md R83: cutting a packed list of 12-bit or 16-bit codewords gives the list back. -/
def Obligations.B2gAfterPackOfCodewords : Prop :=
  ∀ W ∈ [12, 16], ∀ (s : State) (cws : List Group), (∀ c ∈ cws, c.length = W) →
    ∃ out, givesBack (exec .pack { s with operands := { s.operands with groups := cws } })
        { s with operands := { s.operands with groups := cws } } (.bytes out) ∧
      givesBack (exec .b2g { s with operands := { s.operands with buf := out, g := W } })
        { s with operands := { s.operands with buf := out, g := W } } (.groups cws)

/-! ### The patcher -/

/-- 43_patcher.md R135 to R137: the result has the length of the buffer, and its stream differs from the buffer's in bit
k·W + b alone, and only if b < W. A bit outside the buffer is no bit of the stream, so a pair whose byte is outside
changes nothing. For W other than 12 and 16 the model's choice, log entry 8. -/
def Obligations.PatchFlipsTheAddressedBit : Prop :=
  ∀ s : State, ∃ out, givesBack (exec .patch s) s (.bytes out) ∧ out.length = s.operands.buf.length ∧
    ∀ n < 8 * s.operands.buf.length, streamBit out n =
      (streamBit s.operands.buf n ^^
        decide (s.operands.pair.2 < s.operands.W ∧ s.operands.pair.1 * s.operands.W + s.operands.pair.2 = n))

/-- 43_patcher.md R138, R139, R140 (b): every stream bit is flipped once for each entry of the list that addresses it with
b < W, so an even number of times is no flip; the length stays. -/
def Obligations.FixesFlipTheListedBits : Prop :=
  ∀ iW ∈ [(Instr.fixErrors, 12), (.fixErrors2Bit, 16)], ∀ s : State,
    ∃ out, givesBack (exec iW.1 s) s (.bytes out) ∧ out.length = s.operands.buf.length ∧
      ∀ n < 8 * s.operands.buf.length, streamBit out n =
        (streamBit s.operands.buf n ^^
          decide ((s.operands.errors.filter fun kb => kb.2 < iW.2 ∧ kb.1 * iW.2 + kb.2 = n).length % 2 = 1))

/-- 60_exceptions.md R148: out-of-range pairs are skipped and the others still applied, and nothing in the result tells. -/
def Obligations.OutOfRangePairsAreSkipped : Prop :=
  ∀ iW ∈ [(Instr.fixErrors, 12), (.fixErrors2Bit, 16)], ∀ s : State,
    ∃ out, givesBack (exec iW.1 s) s (.bytes out) ∧
      let kept := s.operands.errors.filter fun kb => kb.2 < iW.2 ∧ (kb.1 * iW.2 + kb.2) / 8 < s.operands.buf.length
      givesBack (exec iW.1 { s with operands := { s.operands with errors := kept } })
        { s with operands := { s.operands with errors := kept } } (.bytes out)

/-- 43_patcher.md R140 (a), (b): the order of the list does not matter, and applying a list twice restores the buffer. -/
def Obligations.FixListsCommuteAndUndoThemselves : Prop :=
  ∀ iW ∈ [(Instr.fixErrors, 12), (.fixErrors2Bit, 16)], ∀ s : State,
    ∃ out, givesBack (exec iW.1 s) s (.bytes out) ∧
      (∀ l, s.operands.errors.Perm l →
        givesBack (exec iW.1 { s with operands := { s.operands with errors := l } })
          { s with operands := { s.operands with errors := l } } (.bytes out)) ∧
      givesBack (exec iW.1 { s with operands := { s.operands with buf := out } })
        { s with operands := { s.operands with buf := out } } (.bytes s.operands.buf)

/-- 43_patcher.md R139: for width 16 the pair (k, b) with b < 16 is bit `7 − (b % 8)` of byte `2·k + b // 8`; every other
byte stays. -/
def Obligations.FixErrors2BitAddressesDataAndParityByte : Prop :=
  ∀ (s : State) (k b : Nat), s.operands.errors = [(k, b)] → b < 16 → 2 * k + b / 8 < s.operands.buf.length →
    ∃ out, givesBack (exec .fixErrors2Bit s) s (.bytes out) ∧ out.length = s.operands.buf.length ∧
      ∀ a < s.operands.buf.length, out.getD a 0 =
        if a = 2 * k + b / 8 then s.operands.buf.getD a 0 ^^^ (0x80#8 >>> (b % 8)) else s.operands.buf.getD a 0

/-! ### The buffer operations of the two codecs -/

/-- 41_hamming.md R98, 20_memory.md R43, R45: `ceil(12·N/8)` bytes, codeword k the codeword of byte k, and zero pad
bits. -/
def Obligations.EncodeLaysOutTheCodewords : Prop :=
  ∀ s : State, ∃ out, givesBack (exec .encode s) s (.bytes out) ∧
    out.length = (12 * s.operands.buf.length + 7) / 8 ∧
    (∀ k < s.operands.buf.length, codewordAt 12 out k = henc (s.operands.buf.getD k 0)) ∧
    ∀ n, 12 * s.operands.buf.length ≤ n → streamBit out n = false

/-- 41_hamming.md R100: the report lists exactly the codewords HCHK answers SINGLE for, with their index, in strictly
ascending codeword order. -/
def Obligations.CheckReportsTheLocatedBits : Prop :=
  ∀ s : State, ∃ r, givesBack (exec .check s) s (.report r) ∧ r.Pairwise (fun x y => x.1 < y.1) ∧
    ∀ k b, (k, b) ∈ r ↔ k < 8 * s.operands.buf.length / 12 ∧
      hchk s.cfg.hamEOor (codewordAt 12 s.operands.buf k) = .single b

/-- 41_hamming.md R102: one byte per complete codeword, its data bits as received. -/
def Obligations.DecodeExtractsEveryCodeword : Prop :=
  ∀ s : State, ∃ out, givesBack (exec .decode s) s (.bytes out) ∧ out.length = 8 * s.operands.buf.length / 12 ∧
    ∀ k < out.length, out.getD k 0 = hdec (codewordAt 12 s.operands.buf k)

/-- 42_secded.md R124, 20_memory.md R43: byte 2k of the result is data byte k, and byte 2k + 1 its parity byte, the
exclusive or of the columns of its bits that are 1. -/
def Obligations.Encode2BitInterleavesDataAndParity : Prop :=
  ∀ s : State, ∃ out, givesBack (exec .encode2Bit s) s (.bytes out) ∧ out.length = 2 * s.operands.buf.length ∧
    ∀ k < s.operands.buf.length,
      out.getD (2 * k) 0 = s.operands.buf.getD k 0 ∧
      out.getD (2 * k + 1) 0 = (List.range 8).foldl
        (fun p j => if (s.operands.buf.getD k 0).getMsbD j then p ^^^ col s.cfg.H.cols j else p) 0#8

/-- 42_secded.md R126: the report lists exactly the positions of SINGLE and DOUBLE codewords, ascending; codeword k is bytes
2k and 2k + 1 (20_memory.md R43). -/
def Obligations.Check2BitReportsTheLocatedBits : Prop :=
  ∀ s : State, ∃ r, givesBack (exec .check2Bit s) s (.report r) ∧ ascending r ∧
    ∀ k b, (k, b) ∈ r ↔ k < s.operands.buf.length / 2 ∧
      ∃ v, v = schk s.cfg.H.cols (s.operands.buf.getD (2 * k) 0 ++ s.operands.buf.getD (2 * k + 1) 0) ∧
        (v = .single b ∨ (∃ j, v = .double j b) ∨ ∃ j, v = .double b j)

/-- 42_secded.md R128: bytes 0, 2, 4, … of the received buffer, one per complete codeword. -/
def Obligations.Decode2BitTakesTheDataBytes : Prop :=
  ∀ s : State, ∃ out, givesBack (exec .decode2Bit s) s (.bytes out) ∧ out.length = s.operands.buf.length / 2 ∧
    ∀ k < out.length, out.getD k 0 = s.operands.buf.getD (2 * k) 0

/-- 20_memory.md R46: bits after the last complete codeword have no influence on check and decode of either codec. -/
def Obligations.TrailingBitsHaveNoInfluence : Prop :=
  ∀ iW ∈ [(Instr.check, 12), (.decode, 12), (.check2Bit, 16), (.decode2Bit, 16)],
    ∀ (s : State) (buf : Buffer), 8 * buf.length / iW.2 = 8 * s.operands.buf.length / iW.2 →
      (∀ n < iW.2 * (8 * buf.length / iW.2), streamBit buf n = streamBit s.operands.buf n) →
      ∃ r, givesBack (exec iW.1 s) s r ∧
        givesBack (exec iW.1 { s with operands := { s.operands with buf := buf } })
          { s with operands := { s.operands with buf := buf } } r

/-- 20_memory.md R51: every codeword is processed on its own. Where x is a whole number n of codewords, the report of
x ++ y is the report of x and then that of y with its codeword indices moved by n, and the data of x ++ y the data of x
and then that of y. -/
def Obligations.CodewordsAreProcessedIndependently : Prop :=
  ∀ iW ∈ [(Instr.check, Instr.decode, 12), (.check2Bit, .decode2Bit, 16)],
    ∀ (s : State) (x y : Buffer) (n : Nat), 8 * x.length = n * iW.2.2 →
      let on (z : Buffer) : State := { s with operands := { s.operands with buf := z } }
      ∃ rx ry dx dy,
        givesBack (exec iW.1 (on x)) (on x) (.report rx) ∧ givesBack (exec iW.1 (on y)) (on y) (.report ry) ∧
        givesBack (exec iW.1 (on (x ++ y))) (on (x ++ y)) (.report (rx ++ ry.map fun kb => (n + kb.1, kb.2))) ∧
        givesBack (exec iW.2.1 (on x)) (on x) (.bytes dx) ∧ givesBack (exec iW.2.1 (on y)) (on y) (.bytes dy) ∧
        givesBack (exec iW.2.1 (on (x ++ y))) (on (x ++ y)) (.bytes (dx ++ dy))

/-! ### Reception: what the machine recovers -/

/-- 41_hamming.md R104 (a), 42_secded.md R130 (a): decode gives back what encode took, for every H, sender and receiver
being transactions of any two states. -/
def Obligations.DecodeRecoversWhatEncodeSent : Prop :=
  ∀ ed ∈ [(Instr.encode, Instr.decode), (.encode2Bit, .decode2Bit)], ∀ (s s' : State) (o o' : Operands) (data : Buffer),
    ∃ u v t, transact s ed.1 { o with buf := data } = .next u ∧ u.returned = some (.bytes t) ∧
      transact s' ed.2 { o' with buf := t } = .next v ∧ v.returned = some (.bytes data)

/-- 41_hamming.md R104 (b), (c), (d): whatever at most one flip does to each codeword of an encoded buffer, and anything to
its pad bits, check reports exactly the flips, fixErrors restores every codeword, and decode returns the data. -/
def Obligations.HammingReceptionCorrectsOneFlipPerCodeword : Prop :=
  ∀ (s s' : State) (o o' : Operands) (data : Buffer),
    ∃ u t, transact s .encode { o with buf := data } = .next u ∧ u.returned = some (.bytes t) ∧
      ∀ (t' : Buffer) (F : Nat → List Nat), t'.length = t.length →
        (∀ k < data.length, (F k).length ≤ 1 ∧ (∀ b ∈ F k, b < 12) ∧
          codewordAt 12 t' k = flipAt (codewordAt 12 t k) (F k)) →
        ∃ fixed,
          recv s' o' t' = some ((List.range data.length).flatMap (fun k => (F k).map fun b => (k, b)), fixed, data) ∧
          ∀ k < data.length, codewordAt 12 fixed k = codewordAt 12 t k

/-- 42_secded.md R130 (b): for every H, at most one flip in each codeword of an encoded buffer is reported exactly and
corrected. -/
def Obligations.SecdedReceptionCorrectsOneFlipPerCodeword : Prop :=
  ∀ (s s' : State) (o o' : Operands) (data : Buffer), s'.cfg.H = s.cfg.H →
    ∃ u t, transact s .encode2Bit { o with buf := data } = .next u ∧ u.returned = some (.bytes t) ∧
      ∀ (t' : Buffer) (F : Nat → List Nat), t'.length = t.length →
        (∀ k < data.length, (F k).length ≤ 1 ∧ (∀ b ∈ F k, b < 16) ∧
          codewordAt 16 t' k = flipAt (codewordAt 16 t k) (F k)) →
        recv2Bit s' o' t' = some ((List.range data.length).flatMap (fun k => (F k).map fun b => (k, b)), t, data)

/-- 42_secded.md R130 (c): when H has V3 and V4, at most two flips in each codeword are reported exactly and corrected. The
premise V3 and V4 is the rule's: "A model must not assume it of an H that comes with V1 and V2 only". -/
def Obligations.SecdedReceptionCorrectsTwoFlipsUnderV3V4 : Prop :=
  ∀ (s s' : State) (o o' : Operands) (data : Buffer), s'.cfg.H = s.cfg.H → V3 s.cfg.H.cols → V4 s.cfg.H.cols →
    ∃ u t, transact s .encode2Bit { o with buf := data } = .next u ∧ u.returned = some (.bytes t) ∧
      ∀ (t' : Buffer) (F : Nat → List Nat), t'.length = t.length →
        (∀ k < data.length, (F k).length ≤ 2 ∧ (F k).Pairwise (· < ·) ∧ (∀ b ∈ F k, b < 16) ∧
          codewordAt 16 t' k = flipAt (codewordAt 16 t k) (F k)) →
        recv2Bit s' o' t' = some ((List.range data.length).flatMap (fun k => (F k).map fun b => (k, b)), t, data)

/-- 42_secded.md R130 (c): when R is invertible, every double flip is reported as two positions whose correction restores
the data byte if and only if H has V3 and V4. -/
def Obligations.DoubleFlipCorrectionIffV3V4 : Prop :=
  ∀ H : ParityMatrix, (∀ x : Byte, ssyn H.cols (x.setWidth 16) = 0 → x = 0) →
    ((∀ d : Byte, ∀ b < 16, ∀ a < b, ∃ j k, schk H.cols (flipAt (senc H.cols d) [a, b]) = .double j k ∧
        sdec (flipAt (senc H.cols d) [a, b, j, k]) = d) ↔
      V3 H.cols ∧ V4 H.cols)

/-- 41_hamming.md R94: a codeword with a syndrome of 13 or more is left as it is by recv, under both values of
HAM_E_OOR, whatever the rest of the buffer. -/
def Obligations.RecvLeavesSyndromesAbove12Alone : Prop :=
  ∀ (s : State) (o : Operands) (t : Buffer), ∃ r fixed data, recv s o t = some (r, fixed, data) ∧
    fixed.length = t.length ∧
    ∀ k < 8 * t.length / 12, 13 ≤ (hsyn (codewordAt 12 t k)).toNat →
      codewordAt 12 fixed k = codewordAt 12 t k ∧ data.getD k 0 = hdec (codewordAt 12 t k)

/-- 60_exceptions.md R147: a codeword with an unlocated syndrome has no entry in the report and passes through fixErrors2Bit
and decode2Bit as received, while SCHK answers UNLOCATED for it. -/
def Obligations.UnlocatedCodewordsPassThrough : Prop :=
  ∀ (s : State) (o : Operands) (t : Buffer), ∃ r fixed data, recv2Bit s o t = some (r, fixed, data) ∧
    ∀ k < t.length / 2, ssyn s.cfg.H.cols (codewordAt 16 t k) ≠ 0 →
      sloc1 s.cfg.H.cols (ssyn s.cfg.H.cols (codewordAt 16 t k)) = none →
      sloc2 s.cfg.H.cols (ssyn s.cfg.H.cols (codewordAt 16 t k)) = none →
      (∀ b, (k, b) ∉ r) ∧ fixed.getD (2 * k) 0 = t.getD (2 * k) 0 ∧ fixed.getD (2 * k + 1) 0 = t.getD (2 * k + 1) 0 ∧
      data.getD k 0 = t.getD (2 * k) 0 ∧
      drives (exec .schk { s with operands := { o with a := codewordAt 16 t k } })
        { s with operands := { o with a := codewordAt 16 t k } } { q := 0, cls := 0b11, p0 := 0, p1 := 0 }

/-! ### Reset, runs and invariants -/

/-- 10_state.md R32, 70_reset_and_hazards.md R166, R167: after reset H is the configured one and nothing has been returned;
every machine's H has V1 and V2; and the first operation may be any operation. That no operation is presented at reset is
the model's choice, log entry 6. -/
def Obligations.ResetIsReadyForAnyOperation : Prop :=
  State.reset.cfg = Config.configured ∧ State.reset.returned = none ∧ State.reset.op = none ∧
  (∀ s : State, V1 s.cfg.H.cols ∧ V2 s.cfg.H.cols) ∧
  ∀ (i : Instr) (o : Operands), wellFormed i o = true →
    ∃ t, step (State.reset.present (encode i) o) = .next t ∧ exec i (State.reset.present (encode i) o) = .next t

/-- 10_state.md R23, R32: no run of operations and no action of the caller changes the configuration; from reset it is the
configured one. -/
def Obligations.RunsKeepTheConfiguration : Prop :=
  (∀ s t : State, Run s t → t.cfg = s.cfg) ∧ ∀ t : State, Run State.reset t → t.cfg = Config.configured

/-- 41_hamming.md R100, 42_secded.md R126, 40_bitstream_adapter.md R80: a step keeps the form of returned values. -/
def Obligations.StepKeepsTheFormOfResults : Prop :=
  ∀ s t : State, ResultsInv s → step s = .next t → ResultsInv t

/-- The invariant of `StepKeepsTheFormOfResults` holds after reset (10_state.md R32: nothing has been returned). -/
def Obligations.ResetHasTheFormOfResults : Prop := ResultsInv State.reset
end

