-- ==== Sys2Proof/Laws/Bits.lean ====
section
/-! SUPPORT. The small lemmas of bits and bit sequences. -/

namespace Sys2Proof.Machine

@[simp] theorem bitAt_ofBits (n : Nat) (f : Nat → Bool) (i : Nat) :
    bitAt (ofBits n f) i = (decide (i < n) && f i) := by
  induction n generalizing i with
  | zero => simp [ofBits]
  | succ n ih =>
    simp only [bitAt, BitVec.getMsbD, ofBits, BitVec.getLsbD_concat] at ih ⊢
    rcases Nat.lt_trichotomy i n with h | h | h
    · have h0 : n + 1 - 1 - i ≠ 0 := by omega
      have h1 : n + 1 - 1 - i - 1 = n - 1 - i := by omega
      have := ih i
      simp only [h, decide_true, Bool.true_and] at this
      rw [if_neg h0, h1, this]
    · subst h; simp
    · have : ¬ i < n + 1 := by omega
      simp [this]

/-- Two words with equal stream bits are equal. -/
theorem eq_of_bitAt_eq {n : Nat} {v w : BitVec n} (h : ∀ i, i < n → bitAt v i = bitAt w i) : v = w :=
  BitVec.eq_of_getMsbD_eq (by simpa using h)

theorem ofBits_bitAt {n : Nat} (v : BitVec n) : ofBits n (bitAt v) = v :=
  eq_of_bitAt_eq fun i hi => by simp [hi]

theorem ofBits_congr {n : Nat} {f g : Nat → Bool} (h : ∀ i, i < n → f i = g i) : ofBits n f = ofBits n g :=
  eq_of_bitAt_eq fun i hi => by simp [hi, h i hi]

@[simp] theorem bitAt_xor {n : Nat} (v w : BitVec n) (i : Nat) : bitAt (v ^^^ w) i = (bitAt v i ^^ bitAt w i) := by
  simp [bitAt]

@[simp] theorem bitAt_zero (n i : Nat) : bitAt (0#n) i = false := by simp [bitAt]

theorem bitAt_of_le {n : Nat} (v : BitVec n) {i : Nat} (h : n ≤ i) : bitAt v i = false := by
  simp [bitAt, BitVec.getMsbD, Nat.not_lt.mpr h]

@[simp] theorem seqOf_length {n : Nat} (v : BitVec n) : (seqOf v).length = n := by simp [seqOf]

theorem seqOf_getD {n : Nat} (v : BitVec n) (i : Nat) : (seqOf v).getD i false = bitAt v i := by
  by_cases h : i < n
  · simp [seqOf, h]
  · simp only [seqOf, bitAt, List.getD_eq_getElem?_getD, List.getElem?_map]
    rw [List.getElem?_eq_none (by simpa using Nat.not_lt.mp h)]
    simp [BitVec.getMsbD, h]

/-- `val_n` after `seq_n` is the identity (00_scope.md R8). -/
@[simp] theorem valOf_seqOf {n : Nat} (v : BitVec n) : valOf n (seqOf v) = v :=
  eq_of_bitAt_eq fun i hi => by simp [valOf, hi, seqOf_getD, -List.getD_eq_getElem?_getD]

/-- `seq_n` after `val_n` is the identity on sequences of length n (00_scope.md R8). -/
theorem seqOf_valOf {n : Nat} {s : Group} (h : s.length = n) : seqOf (valOf n s) = s := by
  apply List.ext_getElem
  · simp [h]
  · intro i h1 h2
    simp at h1
    simp [seqOf, valOf, h1, h2]

theorem bitAt_valOf (n : Nat) (s : Group) (i : Nat) : bitAt (valOf n s) i = (decide (i < n) && s.getD i false) := by
  simp [valOf]

@[simp] theorem bitAt_unitAt (n b i : Nat) : bitAt (unitAt n b) i = (decide (i < n) && (i == b)) := by simp [unitAt]

@[simp] theorem xorAll_nil : xorAll [] = false := rfl

@[simp] theorem xorAll_cons (b : Bool) (s : List Bool) : xorAll (b :: s) = (b ^^ xorAll s) := rfl

theorem xorAll_map_xor {α : Type} (f g : α → Bool) (l : List α) :
    xorAll (l.map fun a => f a ^^ g a) = (xorAll (l.map f) ^^ xorAll (l.map g)) := by
  induction l with
  | nil => rfl
  | cons a l ih => simp only [List.map_cons, xorAll_cons, ih]; cases f a <;> cases g a <;> simp

@[simp] theorem xorAll_map_false {α : Type} (l : List α) : xorAll (l.map fun _ => false) = false := by
  induction l with
  | nil => rfl
  | cons a l ih => rw [List.map_cons, xorAll_cons, ih]; rfl

@[simp] theorem flipAt_nil {n : Nat} (v : BitVec n) : flipAt v [] = v := rfl

@[simp] theorem flipAt_cons {n : Nat} (v : BitVec n) (b : Nat) (l : List Nat) :
    flipAt v (b :: l) = flipAt (v ^^^ unitAt n b) l := rfl

end Sys2Proof.Machine
end

