-- ==== Sys2Proof/Laws/Adapter.lean ====
section
/-! SUPPORT. What the bit stream of a buffer, B2G and PACK are, bit by bit. -/

namespace Sys2Proof.Machine

@[simp] theorem bitsOf_nil : bitsOf [] = [] := rfl

@[simp] theorem bitsOf_cons (b : Byte) (buf : Buffer) : bitsOf (b :: buf) = seqOf b ++ bitsOf buf := rfl

@[simp] theorem bitsOf_length (buf : Buffer) : (bitsOf buf).length = 8 * buf.length := by
  induction buf with
  | nil => rfl
  | cons b buf ih => simp [ih]; omega

/-- `streamBit` on the first byte and on the others. -/
theorem streamBit_cons (b : Byte) (buf : Buffer) (n : Nat) :
    streamBit (b :: buf) n = if n < 8 then bitAt b n else streamBit buf (n - 8) := by
  by_cases h : n < 8
  · have : n / 8 = 0 := by omega
    have h2 : n % 8 = n := by omega
    simp [streamBit, this, h2, h, bitAt, BitVec.getMsbD]
  · have e : n / 8 = (n - 8) / 8 + 1 := by omega
    have e2 : n % 8 = (n - 8) % 8 := by omega
    simp [streamBit, h, e, e2]

/-- The formula of 20_memory.md R42: list position n of `bits(buf)` is `streamBit buf n`. -/
theorem bitsOf_getD (buf : Buffer) (n : Nat) : (bitsOf buf).getD n false = streamBit buf n := by
  induction buf generalizing n with
  | nil => simp [streamBit]
  | cons b buf ih =>
    rw [streamBit_cons, bitsOf_cons]
    by_cases h : n < 8
    · rw [List.getD_append _ _ _ _ (by simpa using h), seqOf_getD]; simp [h]
    · rw [List.getD_append_right _ _ _ _ (by simpa using h), seqOf_length, ih]; simp [h]

theorem streamBit_of_le (buf : Buffer) {n : Nat} (h : 8 * buf.length ≤ n) : streamBit buf n = false := by
  rw [← bitsOf_getD]
  exact List.getD_eq_default _ _ (by simpa using h)

/-- Buffers of one length with one bit stream are equal. -/
theorem eq_of_streamBit_eq {x y : Buffer} (hl : x.length = y.length)
    (h : ∀ n, n < 8 * x.length → streamBit x n = streamBit y n) : x = y := by
  induction x generalizing y with
  | nil => exact (List.eq_nil_of_length_eq_zero (by simpa using hl.symm)).symm
  | cons a x ih =>
    cases y with
    | nil => simp at hl
    | cons b y =>
      have hab : a = b := eq_of_bitAt_eq fun i hi => by
        have := h i (by simp; omega)
        simpa [streamBit_cons, hi] using this
      have hxy : x = y := ih (by simpa using hl) fun n hn => by
        have := h (n + 8) (by simp; omega)
        simpa [streamBit_cons] using this
      rw [hab, hxy]

@[simp] theorem b2g_length (data : Buffer) (g : Nat) : (b2g data g).length = 8 * data.length / g := by simp [b2g]

theorem mul_lt_of_lt_div {m g n : Nat} (h : m < n / g) : m * g + g ≤ n := by
  have := Nat.div_mul_le_self n g
  have h2 : (m + 1) * g ≤ n / g * g := Nat.mul_le_mul_right g h
  have h3 : (m + 1) * g = m * g + g := Nat.succ_mul m g
  omega

/-- Group m of B2G, as a list (40_bitstream_adapter.md R80). -/
theorem b2g_getD (data : Buffer) (g m : Nat) (h : m < 8 * data.length / g) :
    (b2g data g).getD m [] = ((bitsOf data).drop (m * g)).take g := by
  simp [b2g, h]

theorem b2g_group_length (data : Buffer) (g m : Nat) (h : m < 8 * data.length / g) :
    ((b2g data g).getD m []).length = g := by
  rw [b2g_getD data g m h]
  have := mul_lt_of_lt_div h
  simp
  omega

/-- Bit i of group m is stream bit m·g + i (40_bitstream_adapter.md R80). -/
theorem b2g_group_bit (data : Buffer) (g m i : Nat) (h : m < 8 * data.length / g) (hi : i < g) :
    ((b2g data g).getD m []).getD i false = streamBit data (m * g + i) := by
  rw [b2g_getD data g m h, ← bitsOf_getD]
  simp [hi]

/-- Group m of B2G as a word is the codeword of 20_memory.md R43. -/
theorem valOf_b2g (data : Buffer) (W m : Nat) (h : m < 8 * data.length / W) :
    valOf W ((b2g data W).getD m []) = codewordAt W data m :=
  ofBits_congr fun i hi => b2g_group_bit data W m i h hi

/-- A function of the words of the groups, mapped over B2G. -/
theorem b2g_map_valOf {α : Type} (data : Buffer) (W : Nat) (f : BitVec W → α) :
    ((b2g data W).map fun g => f (valOf W g)) =
      (List.range (8 * data.length / W)).map fun m => f (codewordAt W data m) := by
  apply List.ext_getElem
  · simp
  · intro m h1 h2
    have h : m < 8 * data.length / W := by simpa using h1
    have := valOf_b2g data W m h
    rw [List.getD_eq_getElem _ _ (by simpa using h)] at this
    simp [this]

@[simp] theorem pack_length (groups : List Group) : (pack groups).length = (groups.flatten.length + 7) / 8 := by
  simp [pack]

/-- Stream bit n of PACK is bit n of the concatenation, or a zero pad bit (40_bitstream_adapter.md R81). -/
theorem streamBit_pack (groups : List Group) (n : Nat) :
    streamBit (pack groups) n = groups.flatten.getD n false := by
  by_cases h : n / 8 < (groups.flatten.length + 7) / 8
  · have hb : 7 - n % 8 < 8 := by omega
    have hlt : n % 8 < 8 := Nat.mod_lt _ (by decide)
    have hn : 8 * (n / 8) + n % 8 = n := Nat.div_add_mod n 8
    have key : (ofBits 8 fun r => groups.flatten.getD (8 * (n / 8) + r) false).getLsbD (7 - n % 8)
        = groups.flatten.getD n false := by
      have := bitAt_ofBits 8 (fun r => groups.flatten.getD (8 * (n / 8) + r) false) (n % 8)
      simp only [bitAt, BitVec.getMsbD, hlt, decide_true, Bool.true_and, hn] at this
      exact this
    rw [← key, streamBit, pack, List.getD_eq_getElem _ _ (by simpa [-List.length_flatten] using h)]
    simp [-List.length_flatten]
  · rw [streamBit_of_le _ (by rw [pack_length]; omega), List.getD_eq_default _ _ (by omega)]

/-- Position k·W + b of a concatenation of groups of one length W is bit b of group k. -/
theorem flatten_getD_of_length {W : Nat} (groups : List Group) (hW : ∀ g ∈ groups, g.length = W) (k b : Nat) (hb : b < W) :
    groups.flatten.getD (k * W + b) false = (groups.getD k []).getD b false := by
  induction groups generalizing k with
  | nil => simp
  | cons g gs ih =>
    have hg : g.length = W := hW g (by simp)
    have hgs : ∀ x ∈ gs, x.length = W := fun x hx => hW x (by simp [hx])
    cases k with
    | zero => rw [List.flatten_cons, Nat.zero_mul, Nat.zero_add, List.getD_append _ _ _ _ (by omega)]; rfl
    | succ k =>
      have e : (k + 1) * W + b - g.length = k * W + b := by rw [hg, Nat.succ_mul]; omega
      rw [List.flatten_cons, List.getD_append_right _ _ _ _ (by rw [hg, Nat.succ_mul]; omega), e, ih hgs]
      rfl

theorem flatten_length_of_length {W : Nat} (groups : List Group) (hW : ∀ g ∈ groups, g.length = W) :
    groups.flatten.length = groups.length * W := by
  induction groups with
  | nil => simp
  | cons g gs ih =>
    have hg : g.length = W := hW g (by simp)
    rw [List.flatten_cons, List.length_append, hg, ih fun x hx => hW x (by simp [hx]), List.length_cons, Nat.succ_mul]
    omega

/-- The packed concatenation of codewords: length and placement (20_memory.md R43, R45). -/
theorem codewordAt_pack {W : Nat} (cs : List (BitVec W)) (k : Nat) :
    codewordAt W (pack (cs.map seqOf)) k = cs.getD k 0#W := by
  refine eq_of_bitAt_eq fun b hb => ?_
  have hW : ∀ g ∈ cs.map seqOf, g.length = W := by simp
  rw [codewordAt, bitAt_ofBits, streamBit_pack, flatten_getD_of_length _ hW k b hb]
  have e : (cs.map seqOf).getD k [] = if h : k < cs.length then seqOf cs[k] else [] := by
    by_cases hk : k < cs.length <;> simp [hk]
  by_cases hk : k < cs.length
  · rw [e, dif_pos hk, seqOf_getD, List.getD_eq_getElem _ _ hk]
    simp [hb]
  · rw [e, dif_neg hk, List.getD_eq_default cs _ (by omega)]
    simp

theorem pack_codewords_length {W : Nat} (cs : List (BitVec W)) :
    (pack (cs.map seqOf)).length = (cs.length * W + 7) / 8 := by
  rw [pack_length, flatten_length_of_length (W := W) _ (by simp)]
  simp

end Sys2Proof.Machine
end

