-- ==== Sys2Proof/Laws/Hamming.lean ====
section
/-! SUPPORT. The small lemmas of the Hamming code: its groups (10_state.md R29), and each check as a sum of codeword
bits. -/

namespace Sys2Proof.Machine

theorem parityGroup_one : parityGroup 1 = [1, 3, 5, 7, 9, 11] := by decide
theorem parityGroup_two : parityGroup 2 = [2, 3, 6, 7, 10, 11] := by decide
theorem parityGroup_four : parityGroup 4 = [4, 5, 6, 7, 12] := by decide
theorem parityGroup_eight : parityGroup 8 = [8, 9, 10, 11, 12] := by decide

/-- A check of a sum of words is the sum of the checks. -/
theorem hamCheckBit_xor (c c' : BitVec 12) (p : Nat) :
    hamCheckBit (c ^^^ c') p = (hamCheckBit c p ^^ hamCheckBit c' p) := by
  simp only [hamCheckBit, ← xorAll_map_xor, bitAt_xor]

theorem bitAt_henc (d : Byte) (b : Nat) (hb : b < 12) :
    bitAt (henc d) b = if parPos.contains b then parityBit d (b + 1) else placedData d b := by
  simp [henc, hb]

theorem bitAt_hdec (c : BitVec 12) (i : Nat) (hi : i < 8) : bitAt (hdec c) i = bitAt c (dataPos.getD i 0) := by
  simp [hdec, hi]

/-- HLOC on the three ranges of the syndrome (41_hamming.md R94). -/
theorem hloc_zero (oor : HamEOor) (e : BitVec 4) (h : e.toNat = 0) : hloc oor e = .none := by simp [hloc, h]

theorem hloc_inside (oor : HamEOor) (e : BitVec 4) (h1 : 1 ≤ e.toNat) (h2 : e.toNat ≤ 12) :
    hloc oor e = .single (e.toNat - 1) := by
  have : e.toNat ≠ 0 := by omega
  simp [hloc, this, h2]

theorem hloc_report (e : BitVec 4) (h : 13 ≤ e.toNat) : hloc .report e = .single (e.toNat - 1) := by
  have h0 : e.toNat ≠ 0 := by omega
  have h1 : ¬ e.toNat ≤ 12 := by omega
  simp [hloc, h0, h1]

theorem hloc_drop (e : BitVec 4) (h : 13 ≤ e.toNat) : hloc .drop e = .unlocated := by
  have h0 : e.toNat ≠ 0 := by omega
  have h1 : ¬ e.toNat ≤ 12 := by omega
  simp [hloc, h0, h1]

end Sys2Proof.Machine
end

