-- ==== Sys2Proof/Laws/Patcher.lean ====
section
/-! SUPPORT. Bytes of a buffer read after a write, and what the patcher does, bit by bit (20_memory.md R47, 43_patcher.md
R135 to R138). -/

namespace Sys2Proof.Machine

@[simp] theorem memWrite_length (buf : Buffer) (a : Nat) (v : Byte) : (memWrite buf a v).length = buf.length := by
  simp [memWrite]

theorem memRead_memWrite_same (buf : Buffer) (a : Nat) (v : Byte) (h : a < buf.length) :
    memRead (memWrite buf a v) a = v := by
  simp [memRead, memWrite, h]

theorem memRead_memWrite_other (buf : Buffer) (a a' : Nat) (v : Byte) (h : a' ≠ a) :
    memRead (memWrite buf a v) a' = memRead buf a' := by
  simp [memRead, memWrite, List.getElem?_set_ne (Ne.symm h)]

theorem streamBit_eq_memRead (buf : Buffer) (n : Nat) :
    streamBit buf n = (memRead buf (n / 8)).getLsbD (7 - n % 8) := rfl

@[simp] theorem patch_length (buf : Buffer) (W : Nat) (kb : ErrorPair) : (patch buf W kb).length = buf.length := by
  unfold patch
  split <;> simp

/-- The mask of 43_patcher.md R137 has its one bit at processor-style number m. -/
theorem getLsbD_one_shiftLeft (m i : Nat) (hi : i < 8) : (1#8 <<< m).getLsbD i = decide (i = m) := by
  simp only [BitVec.getLsbD_shiftLeft, hi, decide_true, Bool.true_and, BitVec.getLsbD_one]
  by_cases h : i = m
  · simp [h]
  · by_cases h2 : i < m
    · simp [h, h2]
    · have : i - m ≠ 0 := by omega
      simp [h, this]

/-- PATCH flips the addressed stream bit, and no other, when the pair is in range (43_patcher.md R137). -/
theorem streamBit_patch (buf : Buffer) (W : Nat) (kb : ErrorPair) (n : Nat) :
    streamBit (patch buf W kb) n =
      (streamBit buf n ^^ (inRange buf.length W kb.1 kb.2 && decide (absBit W kb.1 kb.2 = n))) := by
  unfold patch
  by_cases hr : inRange buf.length W kb.1 kb.2 = true
  · have hlt : absBit W kb.1 kb.2 / 8 < buf.length := by
      simp only [inRange, Bool.and_eq_true, decide_eq_true_eq] at hr; exact hr.2
    simp only [hr, if_true, Bool.true_and, streamBit_eq_memRead]
    by_cases ha : n / 8 = absBit W kb.1 kb.2 / 8
    · have hi : 7 - n % 8 < 8 := by omega
      rw [ha, memRead_memWrite_same _ _ _ hlt, BitVec.getLsbD_xor, getLsbD_one_shiftLeft _ _ hi]
      congr 1
      exact decide_eq_decide.mpr ⟨fun h => by omega, fun h => by omega⟩
    · have : absBit W kb.1 kb.2 ≠ n := fun h => ha (by rw [h])
      rw [memRead_memWrite_other _ _ _ _ ha]
      simp [this]
  · simp [hr]

@[simp] theorem applyFixes_nil (W : Nat) (buf : Buffer) : applyFixes W buf [] = buf := rfl

@[simp] theorem applyFixes_cons (W : Nat) (buf : Buffer) (kb : ErrorPair) (l : List ErrorPair) :
    applyFixes W buf (kb :: l) = applyFixes W (patch buf W kb) l := rfl

@[simp] theorem applyFixes_length (W : Nat) (buf : Buffer) (l : List ErrorPair) :
    (applyFixes W buf l).length = buf.length := by
  induction l generalizing buf with
  | nil => rfl
  | cons kb l ih => simp [ih]

/-- A fix list flips a stream bit once for each in-range pair that addresses it (43_patcher.md R138, R140). -/
theorem streamBit_applyFixes (W : Nat) (buf : Buffer) (l : List ErrorPair) (n : Nat) :
    streamBit (applyFixes W buf l) n =
      (streamBit buf n ^^ xorAll (l.map fun kb => inRange buf.length W kb.1 kb.2 && decide (absBit W kb.1 kb.2 = n))) := by
  induction l generalizing buf with
  | nil => simp
  | cons kb l ih => rw [applyFixes_cons, ih, streamBit_patch, patch_length, List.map_cons, xorAll_cons, Bool.xor_assoc]

end Sys2Proof.Machine
end

