-- ==== Sys2Proof/Laws/PerInstr.lean ====
section
/-! SUPPORT. Statements about every operation as syntax, one lemma per constructor. -/

namespace Sys2Proof.Laws

/-- The operation number of an operation has its format in bit 4 and its code in bit 3 (30_encoding.md R61). -/
def OpFields.Statement (i : Instr) : Prop :=
  (encode i).getLsbD 4 = i.isBuf ∧ (encode i).getLsbD 3 = i.isSecded

theorem OpFields.henc : OpFields.Statement .henc := ⟨rfl, rfl⟩
theorem OpFields.hsyn : OpFields.Statement .hsyn := ⟨rfl, rfl⟩
theorem OpFields.hloc : OpFields.Statement .hloc := ⟨rfl, rfl⟩
theorem OpFields.hchk : OpFields.Statement .hchk := ⟨rfl, rfl⟩
theorem OpFields.hdec : OpFields.Statement .hdec := ⟨rfl, rfl⟩
theorem OpFields.senc : OpFields.Statement .senc := ⟨rfl, rfl⟩
theorem OpFields.ssyn : OpFields.Statement .ssyn := ⟨rfl, rfl⟩
theorem OpFields.sloc1 : OpFields.Statement .sloc1 := ⟨rfl, rfl⟩
theorem OpFields.schk : OpFields.Statement .schk := ⟨rfl, rfl⟩
theorem OpFields.sdec : OpFields.Statement .sdec := ⟨rfl, rfl⟩
theorem OpFields.sloc2 : OpFields.Statement .sloc2 := ⟨rfl, rfl⟩
theorem OpFields.encode : OpFields.Statement .encode := ⟨rfl, rfl⟩
theorem OpFields.check : OpFields.Statement .check := ⟨rfl, rfl⟩
theorem OpFields.fixErrors : OpFields.Statement .fixErrors := ⟨rfl, rfl⟩
theorem OpFields.decode : OpFields.Statement .decode := ⟨rfl, rfl⟩
theorem OpFields.b2g : OpFields.Statement .b2g := ⟨rfl, rfl⟩
theorem OpFields.pack : OpFields.Statement .pack := ⟨rfl, rfl⟩
theorem OpFields.patch : OpFields.Statement .patch := ⟨rfl, rfl⟩
theorem OpFields.encode2Bit : OpFields.Statement .encode2Bit := ⟨rfl, rfl⟩
theorem OpFields.check2Bit : OpFields.Statement .check2Bit := ⟨rfl, rfl⟩
theorem OpFields.fixErrors2Bit : OpFields.Statement .fixErrors2Bit := ⟨rfl, rfl⟩
theorem OpFields.decode2Bit : OpFields.Statement .decode2Bit := ⟨rfl, rfl⟩

end Sys2Proof.Laws
end

