-- ==== Sys2Proof/Laws/Secded.lean ====
section
/-! SUPPORT. The small lemmas of the SECDED code: what a validated H gives, the syndrome as a sum, and what the two searches
answer. -/

namespace Sys2Proof.Machine

theorem ParityMatrix_v1 (H : ParityMatrix) : V1 H.cols := (of_decide_eq_true H.valid).1

theorem ParityMatrix_v2 (H : ParityMatrix) : V2 H.cols := (of_decide_eq_true H.valid).2

theorem bitAt_senc (H : Columns) (d : Byte) (i : Nat) (hi : i < 16) :
    bitAt (senc H d) i =
      if i < 8 then bitAt d i else xorAll ((List.range 8).map fun j => entry H (i - 8) j && bitAt d j) := by
  simp [senc, hi]

theorem bitAt_ssyn (H : Columns) (c : BitVec 16) (r : Nat) (hr : r < 8) :
    bitAt (ssyn H c) r = xorAll ((List.range 16).map fun j => entry H r j && bitAt c j) := by
  simp [ssyn, hr]

theorem bitAt_sdec (c : BitVec 16) (j : Nat) (hj : j < 8) : bitAt (sdec c) j = bitAt c j := by
  simp [sdec, hj]

/-- SLOC1 answers an index below 16 whose column is the syndrome (42_secded.md R114). -/
theorem sloc1_some {H : Columns} {s : Byte} {j : Nat} (h : sloc1 H s = some j) : j < 16 ∧ col H j = s := by
  unfold sloc1 at h
  have h1 := List.find?_some h
  have h2 := List.mem_of_find?_eq_some h
  exact ⟨by simpa using h2, by simpa using h1⟩

theorem sloc1_none {H : Columns} {s : Byte} : sloc1 H s = none ↔ ∀ j < 16, col H j ≠ s := by
  simp [sloc1]

theorem mem_columnPairs (j k : Nat) : (j, k) ∈ columnPairs ↔ j < k ∧ k < 16 := by
  simp only [columnPairs, List.mem_flatMap, List.mem_range, List.mem_map, List.mem_range'_1, Prod.mk.injEq]
  constructor
  · rintro ⟨_, hj, _, hk, rfl, rfl⟩; omega
  · intro h; exact ⟨j, by omega, k, by omega, rfl, rfl⟩

/-- SLOC2 answers a pair j < k below 16 whose columns sum to the syndrome (42_secded.md R116). -/
theorem sloc2_some {H : Columns} {s : Byte} {j k : Nat} (h : sloc2 H s = some (j, k)) :
    j < k ∧ k < 16 ∧ col H j ^^^ col H k = s := by
  unfold sloc2 at h
  have h1 := List.find?_some h
  have h2 := (mem_columnPairs j k).mp (List.mem_of_find?_eq_some h)
  exact ⟨h2.1, h2.2, by simpa using h1⟩

theorem sloc2_none {H : Columns} {s : Byte} :
    sloc2 H s = none ↔ ∀ k < 16, ∀ j < k, col H j ^^^ col H k ≠ s := by
  simp only [sloc2, List.find?_eq_none, Prod.forall, mem_columnPairs, beq_iff_eq]
  exact ⟨fun h k hk j hj => h j k ⟨hj, hk⟩, fun h j k hjk => h k hjk.2 j hjk.1⟩

end Sys2Proof.Machine
end

