-- ==== Sys2Proof/Laws/State.lean ====
section
/-! SUPPORT. One lemma per field per update of the state. -/

namespace Sys2Proof.Machine

variable (s : State) (p : Ports) (r : Returned) (op : BitVec 5) (o : Operands) (n w : Nat)

@[simp] theorem drive_cfg : (s.drive p).cfg = s.cfg := rfl
@[simp] theorem drive_op : (s.drive p).op = s.op := rfl
@[simp] theorem drive_operands : (s.drive p).operands = s.operands := rfl
@[simp] theorem drive_out : (s.drive p).out = p := rfl
@[simp] theorem drive_returned : (s.drive p).returned = none := rfl
@[simp] theorem drive_drawn : (s.drive p).drawn = s.drawn := rfl

@[simp] theorem giveBack_cfg : (s.giveBack r).cfg = s.cfg := rfl
@[simp] theorem giveBack_op : (s.giveBack r).op = s.op := rfl
@[simp] theorem giveBack_operands : (s.giveBack r).operands = s.operands := rfl
@[simp] theorem giveBack_out : (s.giveBack r).out = Config.freePorts s.drawn := rfl
@[simp] theorem giveBack_returned : (s.giveBack r).returned = some r := rfl
@[simp] theorem giveBack_drawn : (s.giveBack r).drawn = s.drawn + 1 := rfl

@[simp] theorem idle_cfg : s.idle.cfg = s.cfg := rfl
@[simp] theorem idle_op : s.idle.op = s.op := rfl
@[simp] theorem idle_operands : s.idle.operands = s.operands := rfl
@[simp] theorem idle_out : s.idle.out = Config.freePorts s.drawn := rfl
@[simp] theorem idle_returned : s.idle.returned = none := rfl
@[simp] theorem idle_drawn : s.idle.drawn = s.drawn + 1 := rfl

@[simp] theorem present_cfg : (s.present op o).cfg = s.cfg := rfl
@[simp] theorem present_op : (s.present op o).op = some op := rfl
@[simp] theorem present_operands : (s.present op o).operands = o := rfl
@[simp] theorem present_out : (s.present op o).out = Config.freePorts s.drawn := rfl
@[simp] theorem present_returned : (s.present op o).returned = s.returned := rfl
@[simp] theorem present_drawn : (s.present op o).drawn = s.drawn + 1 := rfl

@[simp] theorem withdraw_cfg : s.withdraw.cfg = s.cfg := rfl
@[simp] theorem withdraw_op : s.withdraw.op = none := rfl
@[simp] theorem withdraw_operands : s.withdraw.operands = s.operands := rfl
@[simp] theorem withdraw_out : s.withdraw.out = Config.freePorts s.drawn := rfl
@[simp] theorem withdraw_returned : s.withdraw.returned = s.returned := rfl
@[simp] theorem withdraw_drawn : s.withdraw.drawn = s.drawn + 1 := rfl

@[simp] theorem withFetchWord_cfg : (s.withFetchWord n w).cfg = s.cfg := rfl
@[simp] theorem withFetchWord_op : (s.withFetchWord n w).op = some (opOfWord w) := rfl
@[simp] theorem withFetchWord_operands : (s.withFetchWord n w).operands = s.operands := rfl
@[simp] theorem withFetchWord_out : (s.withFetchWord n w).out = s.out := rfl
@[simp] theorem withFetchWord_returned : (s.withFetchWord n w).returned = s.returned := rfl
@[simp] theorem withFetchWord_drawn : (s.withFetchWord n w).drawn = s.drawn := rfl

end Sys2Proof.Machine
end

