-- ==== Sys2Proof/Laws/Step.lean ====
section
/-! SUPPORT. What one step can do, said once: the inversion lemmas of `exec` and `step`. -/

namespace Sys2Proof.Machine

/-- An operation that answers a next state either drives the CW ports or gives back a value (30_encoding.md R61). -/
theorem exec_next_cases {i : Instr} {s t : State} (h : exec i s = .next t) :
    (i.isBuf = false ∧ ∃ p, t = s.drive p) ∨ (i.isBuf = true ∧ ∃ r, t = s.giveBack r) := by
  cases i <;>
    first
      | exact .inl ⟨rfl, _, (Host.Outcome.next.inj h).symm⟩
      | exact .inr ⟨rfl, _, (Host.Outcome.next.inj h).symm⟩
      | skip
  · change execB2g s = _ at h
    unfold execB2g at h
    split at h
    · cases h
    · exact .inr ⟨rfl, _, (Host.Outcome.next.inj h).symm⟩

/-- A step that answers a next state idled or performed the presented operation. -/
theorem step_next_cases {s t : State} (h : step s = .next t) :
    (s.op = none ∧ t = s.idle) ∨ ∃ op i, s.op = some op ∧ decode op = .ok i ∧ exec i s = .next t := by
  unfold step at h
  split at h
  · exact .inl ⟨‹_›, (Host.Outcome.next.inj h).symm⟩
  · split at h
    · exact .inr ⟨_, _, ‹_›, ‹_›, h⟩
    · cases h

/-- Every operation but B2G answers a next state; B2G does so for g ≥ 1 (60_exceptions.md R150). -/
theorem exec_answers (i : Instr) (s : State) (h : i = .b2g → s.operands.g ≠ 0) : ∃ t, exec i s = .next t := by
  cases i <;> first | exact ⟨_, rfl⟩ | skip
  exact ⟨_, if_neg (h rfl)⟩

theorem execB2g_refused (s : State) (h : s.operands.g = 0) : exec .b2g s = .refused .groupSizeZero := if_pos h

end Sys2Proof.Machine
end

