-- ==== Sys2Proof/Tests/Slice0.lean ====
section
/-! SUPPORT. Tests. Expected values are from 95_test_vectors.md, whose section is named, and from the table of 30_encoding.md
R62; none is the model's own answer. Each witness shows a concrete state and operands that meet the hypotheses of the
obligation it names. -/

namespace Sys2Proof.Tests
open Sys2Proof.Machine

-- One theorem after another: kernel evaluations that wait for one another would each hold a thread.
set_option Elab.async false

/-! ### States to test on -/

/-- `H_ref`, 95_test_vectors.md section 5.1: the type's default value. -/
def hRef : ParityMatrix := default

theorem test_hRef_columns : hRef.cols = hRefColumns := rfl

/-- `H_weak`, section 5.1. -/
def hWeak : ParityMatrix :=
  { cols := #v[0x03, 0x05, 0x06, 0x09, 0x0A, 0x0C, 0x11, 0x12, 0x80, 0x40, 0x20, 0x10, 0x08, 0x04, 0x02, 0x01]
    valid := by decide +kernel }

/-- The columns of `H_low`, section 5.7. -/
def hLowColumns : Columns :=
  #v[0x30, 0x50, 0x60, 0x90, 0xA0, 0xC0, 0x70, 0xB0, 0x80, 0x40, 0x20, 0x10, 0x08, 0x88, 0x48, 0x28]

/-- A state with given H, HAM_E_OOR and operands. -/
def machine (H : ParityMatrix) (oor : HamEOor) (o : Operands) : State :=
  { cfg := { H := H, hamEOor := oor }, op := none, operands := o,
    out := { q := 0, cls := 0, p0 := 0, p1 := 0 }, returned := none, drawn := 0 }

/-- Operands with a value on port a. -/
def onA (a : BitVec 16) : Operands := { resetOperands with a := a }

/-- Operands with a buffer. -/
def onBuf (b : Buffer) : Operands := { resetOperands with buf := b }

/-- The port results of an outcome as numbers q, cls, p0, p1. -/
def ports : Host.Outcome State Fault Refusal → Option (Nat × Nat × Nat × Nat)
  | .next t => some (t.out.q.toNat, t.out.cls.toNat, t.out.p0.toNat, t.out.p1.toNat)
  | .fault _ => none
  | .refused _ => none

/-- The value an outcome returned. -/
def value : Host.Outcome State Fault Refusal → Option Returned
  | .next t => t.returned
  | .fault _ => none
  | .refused _ => none

/-- The refusal of an outcome. -/
def refusal : Host.Outcome State Fault Refusal → Option Refusal
  | .next _ => none
  | .fault _ => none
  | .refused r => some r

/-- The ports after one step with i presented on machine H, HAM_E_OOR, port a. -/
def onPorts (i : Instr) (H : ParityMatrix) (oor : HamEOor) (a : BitVec 16) : Option (Nat × Nat × Nat × Nat) :=
  ports (transact (machine H oor resetOperands) i (onA a))

/-- The value returned by one step with i presented on machine H, HAM_E_OOR and operands. -/
def giving (i : Instr) (H : ParityMatrix) (oor : HamEOor) (o : Operands) : Option Returned :=
  value (transact (machine H oor resetOperands) i o)

/-! ### Well-formedness: each check has a term it refuses -/

theorem test_wellFormed_b2g_group_zero : wellFormed .b2g { resetOperands with g := 0 } = false := by decide
theorem test_wellFormed_b2g_group_one : wellFormed .b2g { resetOperands with g := 1 } = true := by decide
theorem test_wellFormed_patch_width : wellFormed .patch { resetOperands with W := 13 } = false := by decide
theorem test_wellFormed_patch_sixteen : wellFormed .patch { resetOperands with W := 16 } = true := by decide

/-! ### Decoding: the words of 30_encoding.md R62, written out bit by bit -/

theorem test_decode_cw_hamming :
    decode 0b00000 = .ok .henc ∧ decode 0b00001 = .ok .hsyn ∧ decode 0b00010 = .ok .hloc ∧
    decode 0b00011 = .ok .hchk ∧ decode 0b00100 = .ok .hdec := by decide
theorem test_decode_cw_secded :
    decode 0b01000 = .ok .senc ∧ decode 0b01001 = .ok .ssyn ∧ decode 0b01010 = .ok .sloc1 ∧
    decode 0b01011 = .ok .schk ∧ decode 0b01100 = .ok .sdec ∧ decode 0b01101 = .ok .sloc2 := by decide
theorem test_decode_buf_hamming :
    decode 0b10000 = .ok .encode ∧ decode 0b10001 = .ok .check ∧ decode 0b10010 = .ok .fixErrors ∧
    decode 0b10011 = .ok .decode := by decide
theorem test_decode_buf_shared :
    decode 0b10100 = .ok .b2g ∧ decode 0b10101 = .ok .pack ∧ decode 0b10110 = .ok .patch := by decide
theorem test_decode_buf_secded :
    decode 0b11000 = .ok .encode2Bit ∧ decode 0b11001 = .ok .check2Bit ∧ decode 0b11010 = .ok .fixErrors2Bit ∧
    decode 0b11011 = .ok .decode2Bit := by decide
/-- 30_encoding.md R71. -/
theorem test_decode_reserved :
    ∀ n ∈ [5, 6, 7, 14, 15, 23, 28, 29, 30, 31], decodeTableWord 8 n = none := by decide
/-- The program P1 of section 7, encoding 16, 17, 18, 19: its first operation, and the rest. -/
theorem test_decodeBytes_program : decodeBytes [16, 17, 18, 19] = some (.ok .encode, [17, 18, 19]) := by decide

/-! ### The step -/

theorem test_step_reserved :
    refusal (step { machine hRef .report resetOperands with op := some 5 }) = some (.reservedOperation 5) := by decide +kernel
theorem test_step_withFetchWord :
    ports (step ((machine hRef .report (onA 0x41)).withFetchWord 8 0)) = some (0x891, 0, 0, 0) := by decide +kernel
theorem test_step_idle_returns_nothing : value (step State.reset) = none := by decide

/-! ### Hamming, one codeword: sections 3.1 and 3.2 -/

theorem test_henc_41 : onPorts .henc hRef .report 0x41 = some (0x891, 0, 0, 0) := by decide +kernel
/-- The high-order bits of the port are ignored (30_encoding.md R63). -/
theorem test_henc_B7_high_bits : onPorts .henc hRef .report 0xFFB7 = some (0xF77, 0, 0, 0) := by decide +kernel
theorem test_hsyn_555 : onPorts .hsyn hRef .report 0x555 = some (14, 0, 0, 0) := by decide +kernel
theorem test_hsyn_ABC : onPorts .hsyn hRef .report 0xABC = some (11, 0, 0, 0) := by decide +kernel
theorem test_hloc_13_report : onPorts .hloc hRef .report 13 = some (0, 1, 12, 0) := by decide +kernel
theorem test_hloc_13_drop : onPorts .hloc hRef .drop 13 = some (0, 3, 0, 0) := by decide +kernel
theorem test_hchk_two_flips : onPorts .hchk hRef .report 0x491 = some (0, 1, 2, 0) := by decide +kernel
theorem test_hchk_801_drop : onPorts .hchk hRef .drop 0x801 = some (0, 3, 0, 0) := by decide +kernel
theorem test_hdec_A91 : onPorts .hdec hRef .report 0xA91 = some (0xC1, 0, 0, 0) := by decide +kernel
theorem test_hdec_555 : onPorts .hdec hRef .report 0x555 = some (0x25, 0, 0, 0) := by decide +kernel

/-! ### SECDED, one codeword: sections 5.2 to 5.7 -/

theorem test_senc_48 : onPorts .senc hRef .report 0x48 = some (0x48A5, 0, 0, 0) := by decide +kernel
theorem test_senc_1B_weak : onPorts .senc hWeak .report 0x1B = some (0x1B00, 0, 0, 0) := by decide +kernel
theorem test_ssyn_C8A5 : onPorts .ssyn hRef .report 0xC8A5 = some (0x0F, 0, 0, 0) := by decide +kernel
theorem test_ssyn_C824 : onPorts .ssyn hRef .report 0xC824 = some (0x8E, 0, 0, 0) := by decide +kernel
theorem test_sloc1_ED : onPorts .sloc1 hRef .report 0xED = some (0, 1, 7, 0) := by decide +kernel
theorem test_sloc1_zero_misses : onPorts .sloc1 hRef .report 0x00 = some (0, 0, 0, 0) := by decide +kernel
theorem test_sloc2_least_pair : onPorts .sloc2 hWeak .report 0x0F = some (0, 1, 0, 5) := by decide +kernel
theorem test_sloc2_last_pair : onPorts .sloc2 hRef .report 0x03 = some (0, 1, 14, 15) := by decide +kernel
theorem test_schk_double_as_single : onPorts .schk hWeak .report 0x880F = some (0, 1, 2, 0) := by decide +kernel
theorem test_schk_three_flips :
    onPorts .schk hRef .report 0xC824 = some (0, 2, 2, 6) ∧ onPorts .schk hRef .report 0xA8A5 = some (0, 3, 0, 0) := by
  decide +kernel
theorem test_sdec_C8A5 : onPorts .sdec hRef .report 0xC8A5 = some (0xC8, 0, 0, 0) := by decide +kernel

/-! ### Adapter and patcher: sections 2, 4, 5.6 and 6 -/

/-- The 12-bit groups ABC and DEF. -/
def abcDef : List Group :=
  [[true, false, true, false, true, false, true, true, true, true, false, false],
   [true, true, false, true, true, true, true, false, true, true, true, true]]

theorem test_b2g_twelve :
    giving .b2g hRef .report { onBuf [0xAB, 0xCD, 0xEF, 0x01] with g := 12 } = some (.groups abcDef) := by decide +kernel
theorem test_b2g_zero_refused :
    refusal (transact (machine hRef .report resetOperands) .b2g { onBuf [0xAB] with g := 0 }) = some .groupSizeZero := by
  decide +kernel
theorem test_pack_twelve :
    giving .pack hRef .report { resetOperands with groups := abcDef } = some (.bytes [0xAB, 0xCD, 0xEF]) := by
  decide +kernel
theorem test_pack_pads :
    giving .pack hRef .report { resetOperands with groups := [[true], [false], [true]] } = some (.bytes [0xA0]) := by
  decide +kernel
/-- Section 6, W = 12, (1, 7), L = 5: mask 10 of byte 2. -/
theorem test_patch_in_range :
    giving .patch hRef .report { onBuf [0, 0, 0, 0, 0] with W := 12, pair := (1, 7) } = some (.bytes [0, 0, 0x10, 0, 0]) := by
  decide +kernel
/-- Section 6, W = 16, (6, 0), L = 12: not in range. -/
theorem test_patch_out_of_range :
    giving .patch hRef .report { onBuf (List.replicate 12 0) with W := 16, pair := (6, 0) } =
      some (.bytes (List.replicate 12 0)) := by decide +kernel
theorem test_fixErrors_last_codeword_bit :
    giving .fixErrors hRef .report { onBuf [0x19, 0x85, 0xC9, 0x45, 0x10] with errors := [(2, 11)] } =
      some (.bytes [0x19, 0x85, 0xC9, 0x45, 0x00]) := by decide +kernel
theorem test_fixErrors_index_twelve_skipped :
    giving .fixErrors hRef .report { onBuf [0x19, 0x85, 0xC9, 0x45, 0x10] with errors := [(0, 12)] } =
      some (.bytes [0x19, 0x85, 0xC9, 0x45, 0x10]) := by decide +kernel
theorem test_fixErrors2Bit_three :
    giving .fixErrors2Bit hRef .report { onBuf [0x88, 0xA5, 0x65, 0x21] with errors := [(0, 0), (0, 1), (1, 15)] } =
      some (.bytes [0x48, 0xA5, 0x65, 0x20]) := by decide +kernel
theorem test_fixErrors2Bit_parity_byte :
    giving .fixErrors2Bit hRef .report { onBuf [0x48, 0xA5] with errors := [(0, 16), (0, 8)] } =
      some (.bytes [0x48, 0x25]) := by decide +kernel

/-! ### Buffers: sections 4, 5.6 and 7 -/

theorem test_encode_hi :
    giving .encode hRef .report (onBuf [0x48, 0x69, 0x21]) = some (.bytes [0x19, 0x85, 0xC9, 0x45, 0x10]) := by
  decide +kernel
theorem test_check_flip_19 :
    giving .check hRef .report (onBuf [0x19, 0x85, 0xD9, 0x45, 0x10]) = some (.report [(1, 7)]) := by decide +kernel
theorem test_check_e_13 :
    giving .check hRef .report (onBuf [0x80, 0x10]) = some (.report [(0, 12)]) ∧
    giving .check hRef .drop (onBuf [0x80, 0x10]) = some (.report []) := by decide +kernel
theorem test_decode_pad_ignored :
    giving .decode hRef .report (onBuf [0x19, 0x85, 0xC9, 0x45, 0x1F]) = some (.bytes [0x48, 0x69, 0x21]) := by
  decide +kernel
theorem test_encode2Bit_hello :
    giving .encode2Bit hRef .report (onBuf [0x48, 0x65, 0x6C, 0x6C, 0x6F, 0x21]) =
      some (.bytes [0x48, 0xA5, 0x65, 0x20, 0x6C, 0x5B, 0x6C, 0x5B, 0x6F, 0x6D, 0x21, 0xB8]) := by decide +kernel
theorem test_check2Bit_double_and_single :
    giving .check2Bit hRef .report (onBuf [0x88, 0xA5, 0x65, 0x21]) = some (.report [(0, 0), (0, 1), (1, 15)]) := by
  decide +kernel
theorem test_check2Bit_unlocated_is_silent :
    giving .check2Bit hRef .report (onBuf [0xA8, 0xA5]) = some (.report []) := by decide +kernel
theorem test_decode2Bit_odd_byte_dropped :
    giving .decode2Bit hRef .report (onBuf [0x48, 0xA5, 0x65]) = some (.bytes [0x48]) := by decide +kernel

/-! ### The three matrices: sections 5.1 and 5.7 -/

theorem test_hRef_v3 : V3 hRef.cols := by decide +kernel
theorem test_hRef_v4 : V4 hRef.cols := by decide +kernel
theorem test_hRef_R_invertible : ∀ x < 256, ssyn hRef.cols ((BitVec.ofNat 8 x).setWidth 16) = 0 → x = 0 := by
  decide +kernel
/-- col(0) = col(14) ^ col(15). -/
theorem test_hWeak_lacks_v3 : ¬ V3 hWeak.cols := fun h => h 15 (by decide) 14 (by decide) 0 (by decide) (by decide +kernel)
/-- col(0) ^ col(5) = col(1) ^ col(4). -/
theorem test_hWeak_lacks_v4 : ¬ V4 hWeak.cols :=
  fun h => h (0, 5) (by decide) (1, 4) (by decide) (by decide) (by decide +kernel)
theorem test_hLow_zero_syndrome_not_valid :
    V1 hLowColumns ∧ ssyn hLowColumns 0x0029 = 0 ∧ senc hLowColumns 0x00 = 0 := by decide +kernel

/-! ### Witnesses of the obligations' hypotheses -/

theorem witness_ReservedNumbersAreRefused :
    { State.reset with op := some 31 }.op = some (31 : BitVec 5) ∧
    (31 : BitVec 5).toNat ∈ [5, 6, 7, 14, 15, 23, 28, 29, 30, 31] := by decide
theorem witness_DecodeInvertsEncode : decode 22 = .ok .patch := by decide
theorem witness_StepRunsThePresentedOperation :
    (State.reset.present 11 (onA 0x48A5)).op = some 11 ∧ decode 11 = .ok .schk := by decide
theorem witness_StepWithNothingPresentedIdles : State.reset.op = none := rfl
theorem witness_StepStopsOnlyAtTheBoundary :
    accepted State.reset = true ∧ accepted (State.reset.present 16 resetOperands) = true ∧
    accepted (State.reset.present 5 resetOperands) = false ∧
    accepted (State.reset.present 20 { resetOperands with g := 0 }) = false := by decide
theorem witness_OperationsCompleteAndKeepTheirInputs :
    (wellFormed .b2g State.reset.operands = true ∧ wellFormed .patch State.reset.operands = true) ∧
    exec .henc State.reset = .next (State.reset.drive (vectorPorts (henc 0))) := ⟨by decide, rfl⟩
/-- HCHK on two machines that differ in H, and SCHK on two that differ in HAM_E_OOR. -/
theorem witness_ResultsDependOnlyOnWhatIsRead :
    (∃ s u t : State, s.operands = u.operands ∧ s.cfg.H.cols ≠ u.cfg.H.cols ∧ s.cfg.hamEOor = u.cfg.hamEOor ∧
      Instr.hchk ∉ [Instr.senc, .ssyn, .sloc1, .sloc2, .schk, .encode2Bit, .check2Bit] ∧ exec .hchk s = .next t) ∧
    ∃ s u t : State, s.operands = u.operands ∧ s.cfg.H = u.cfg.H ∧ s.cfg.hamEOor ≠ u.cfg.hamEOor ∧
      Instr.schk ∉ [Instr.hloc, .hchk, .check] ∧ exec .schk s = .next t :=
  ⟨⟨machine hRef .report (onA 1), machine hWeak .report (onA 1), _, rfl, by decide +kernel, rfl, by decide, rfl⟩,
   ⟨machine hRef .report (onA 1), machine hRef .drop (onA 1), _, rfl, rfl, by decide, by decide, rfl⟩⟩
theorem witness_UnusedInputBitsAreIgnored :
    (Instr.hloc, 4) ∈ [(Instr.henc, 8), (.hsyn, 12), (.hloc, 4), (.hchk, 12), (.hdec, 12), (.senc, 8), (.sloc1, 8),
      (.sloc2, 8)] ∧
    ∀ n < 4, (0xFFFD : BitVec 16).getLsbD n = (machine hRef .drop (onA 0x000D)).operands.a.getLsbD n := by decide +kernel
/-- A vector result; NONE, SINGLE, UNLOCATED and DOUBLE of SCHK; a miss and a hit of SLOC2. -/
theorem witness_UnusedOutputBitsAreZero :
    (onPorts .senc hRef .report 0x48).isSome ∧ (onPorts .schk hRef .report 0x48A5).map (·.2.1) = some 0 ∧
    (onPorts .schk hRef .report 0xC8A5).map (·.2.1) = some 1 ∧ (onPorts .schk hRef .report 0xA8A5).map (·.2.1) = some 3 ∧
    (onPorts .schk hRef .report 0x88A5).map (·.2.1) = some 2 ∧ (onPorts .sloc2 hRef .report 0x00).map (·.2.1) = some 0 ∧
    (onPorts .sloc2 hRef .report 0x3C).map (·.2.1) = some 1 := by decide +kernel
/-- No flip, one flip at the last index, two flips, three flips. -/
theorem witness_HsynLaws :
    (∀ b ∈ ([] : List Nat), b < 12) ∧ (∀ b ∈ [11], b < 12) ∧ (∀ b ∈ [0, 1, 2], b < 12) ∧ (10 < 11 ∧ 11 < 12) := by decide
/-- The boundaries 0, 1, 12, 13 and 15 of the four ranges, under the value each asks for. -/
theorem witness_HlocLocatesThePosition :
    (((machine hRef .report (onA 0)).operands.a.setWidth 4).toNat = 0) ∧
    (((machine hRef .drop (onA 1)).operands.a.setWidth 4).toNat = 1) ∧
    (((machine hRef .drop (onA 12)).operands.a.setWidth 4).toNat = 12) ∧
    (((machine hRef .report (onA 13)).operands.a.setWidth 4).toNat = 13 ∧
      (machine hRef .report (onA 13)).cfg.hamEOor = .report) ∧
    (((machine hRef .drop (onA 0xFFFF)).operands.a.setWidth 4).toNat = 15 ∧
      (machine hRef .drop (onA 0xFFFF)).cfg.hamEOor = .drop) := by decide
theorem witness_HchkLocatesASingleFlip :
    (machine hRef .drop (onA 0xF891)).operands.a.setWidth 12 = henc 0x41 ∧
    (machine hRef .drop (onA 0x091)).operands.a.setWidth 12 = flipAt (henc 0x41) [0] ∧
    (machine hRef .drop (onA 0x890)).operands.a.setWidth 12 = flipAt (henc 0x41) [11] := by decide +kernel
theorem witness_HdecExtractsTheData : 7 ∈ [0, 1, 3, 7] ∧ 0 < 8 ∧ 7 < 8 := by decide
theorem witness_SsynLaws : (∀ j ∈ [0, 15], j < 16) ∧ senc hRef.cols 0x48 ≠ 0 := by decide +kernel
/-- A hit on column 0 and on column 15, a miss, and zero. -/
theorem witness_Sloc1MatchesTheColumn :
    col (machine hRef .report (onA 0x0F)).cfg.H.cols 0 = (machine hRef .report (onA 0x0F)).operands.a.setWidth 8 ∧
    col (machine hRef .report (onA 0x01)).cfg.H.cols 15 = (machine hRef .report (onA 0x01)).operands.a.setWidth 8 ∧
    (∀ j < 16, col hRef.cols j ≠ (onA 0x03).a.setWidth 8) ∧ (onA 0xFF00).a.setWidth 8 = 0#8 := by decide +kernel
/-- The least of several pairs, the only pair with V4, no pair, and zero. -/
theorem witness_Sloc2FindsTheLeastPair :
    (col hWeak.cols 0 ^^^ col hWeak.cols 5 = 0x0F ∧
      ∀ k' < 16, ∀ j' < k', (j' < 0 ∨ j' = 0 ∧ k' < 5) → col hWeak.cols j' ^^^ col hWeak.cols k' ≠ 0x0F) ∧
    (col hRef.cols 14 ^^^ col hRef.cols 15 = 0x03 ∧ V4 hRef.cols) ∧
    (∀ k < 16, ∀ j < k, col hRef.cols j ^^^ col hRef.cols k ≠ 0xFF) ∧ (onA 0).a.setWidth 8 = 0#8 :=
  ⟨by decide +kernel, ⟨by decide +kernel, test_hRef_v4⟩, by decide +kernel, by decide⟩
/-- Zero, a column at either end, the least of several pairs, and no position. -/
theorem witness_SchkTestsInOrder :
    ssyn hRef.cols 0x48A5 = 0 ∧ col hRef.cols 0 = ssyn hRef.cols 0xC8A5 ∧ col hRef.cols 15 = ssyn hRef.cols 0x48A4 ∧
    (ssyn hWeak.cols 0x000F = 0x0F ∧ (∀ m < 16, col hWeak.cols m ≠ 0x0F) ∧
      col hWeak.cols 0 ^^^ col hWeak.cols 5 = 0x0F ∧
      ∀ k' < 16, ∀ j' < k', (j' < 0 ∨ j' = 0 ∧ k' < 5) → col hWeak.cols j' ^^^ col hWeak.cols k' ≠ 0x0F) ∧
    (ssyn hRef.cols 0xA8A5 = 0x69 ∧ (∀ m < 16, col hRef.cols m ≠ 0x69) ∧
      ∀ k < 16, ∀ j < k, col hRef.cols j ^^^ col hRef.cols k ≠ 0x69) := by decide +kernel
theorem witness_SdecTakesTheDataByte : (8 < 16 ∧ 8 ≤ 8) ∧ (15 < 16 ∧ 8 ≤ 15) := by decide
/-- Two flips whose sum is a column; two whose sum is none, with V4 and without. -/
theorem witness_SchkOnAFlippedCodeword :
    col hWeak.cols 2 = col hWeak.cols 0 ^^^ col hWeak.cols 1 ∧
    (∀ m < 16, col hRef.cols m ≠ col hRef.cols 14 ^^^ col hRef.cols 15) ∧ V4 hRef.cols ∧
    (∀ m < 16, col hWeak.cols m ≠ col hWeak.cols 1 ^^^ col hWeak.cols 4) ∧ ¬ V4 hWeak.cols :=
  ⟨by decide +kernel, by decide +kernel, test_hRef_v4, by decide +kernel, test_hWeak_lacks_v4⟩
theorem witness_LocatedSyndromesUnderV3V4 : V3 hRef.cols ∧ V4 hRef.cols := ⟨test_hRef_v3, test_hRef_v4⟩
/-- Columns with R = I. -/
theorem witness_V2MeansRFixesP : V2 hRef.cols ∧ ∀ r < 8, col hRef.cols (8 + r) = unitAt 8 r :=
  ⟨(of_decide_eq_true hRef.valid).2, by decide +kernel⟩
/-- A word of zero syndrome, and a matrix whose R is invertible. -/
theorem witness_ZeroSyndromeIsValidIffRInvertible :
    ssyn hRef.cols 0x48A5 = 0 ∧ ∀ x < 256, ssyn hRef.cols ((BitVec.ofNat 8 x).setWidth 16) = 0 → x = 0 :=
  ⟨by decide +kernel, test_hRef_R_invertible⟩
theorem witness_EncodersAreLinearAndInjective : henc 0x41 = henc 0x41 ∧ senc hRef.cols 0x48 = senc hRef.cols 0x48 :=
  ⟨rfl, rfl⟩
theorem witness_B2gCutsTheStream :
    1 ≤ (onBuf [0xAB, 0xCD]).g ∧ ({ onBuf [0xAB] with g := 0 } : Operands).g = 0 := by decide
theorem witness_PackAfterB2g :
    1 ≤ ({ onBuf [0xAB, 0xCD] with g := 12 } : Operands).g ∧ ({ onBuf [0xAB, 0xCD] with g := 8 } : Operands).g = 8 := by
  decide
theorem witness_B2gAfterPackOfCodewords : 12 ∈ [12, 16] ∧ ∀ c ∈ abcDef, c.length = 12 := by decide
theorem witness_FixListsCommuteAndUndoThemselves : [(0, 0), (1, 5)].Perm [(1, 5), (0, 0)] := by decide
theorem witness_FixErrors2BitAddressesDataAndParityByte :
    ({ onBuf [0x48, 0xA5] with errors := [(0, 15)] } : Operands).errors = [(0, 15)] ∧ 15 < 16 ∧
    2 * 0 + 15 / 8 < (onBuf [0x48, 0xA5]).buf.length := by decide
/-- 95_test_vectors.md section 4: `19 85 C9 45 10` with its pad bits changed to `1F`. -/
theorem witness_TrailingBitsHaveNoInfluence :
    8 * [(0x19 : Byte), 0x85, 0xC9, 0x45, 0x1F].length / 12 = 8 * (onBuf [0x19, 0x85, 0xC9, 0x45, 0x10]).buf.length / 12 ∧
    ∀ n < 12 * (8 * [(0x19 : Byte), 0x85, 0xC9, 0x45, 0x1F].length / 12),
      streamBit [0x19, 0x85, 0xC9, 0x45, 0x1F] n = streamBit (onBuf [0x19, 0x85, 0xC9, 0x45, 0x10]).buf n := by
  decide +kernel
/-- Two Hamming codewords in three bytes, one SECDED codeword in two. -/
theorem witness_CodewordsAreProcessedIndependently :
    8 * [(0x89 : Byte), 0x15, 0x92].length = 2 * 12 ∧ 8 * [(0x48 : Byte), 0xA5].length = 1 * 16 := by decide
theorem witness_DecodeRecoversWhatEncodeSent :
    (Instr.encode2Bit, Instr.decode2Bit) ∈ [(Instr.encode, Instr.decode), (.encode2Bit, .decode2Bit)] := by decide
/-- Program P2: `19 85 C9 45 10` received as `19 85 C1 45 11`. -/
theorem witness_HammingReceptionCorrectsOneFlipPerCodeword :
    let t : Buffer := [0x19, 0x85, 0xC9, 0x45, 0x10]
    let t' : Buffer := [0x19, 0x85, 0xC1, 0x45, 0x11]
    let F (k : Nat) : List Nat := if k = 1 then [8] else []
    hamEncode [0x48, 0x69, 0x21] = t ∧ t'.length = t.length ∧
    ∀ k < 3, (F k).length ≤ 1 ∧ (∀ b ∈ F k, b < 12) ∧ codewordAt 12 t' k = flipAt (codewordAt 12 t k) (F k) := by
  decide +kernel
/-- Sections 5.3 and 5.5: `48 A5` received as `48 A4` with H_ref, `48 0F` as `C8 0F` with H_weak. -/
theorem witness_SecdedReceptionCorrectsOneFlipPerCodeword :
    (machine hRef .drop resetOperands).cfg.H = (machine hRef .report resetOperands).cfg.H ∧
    (secEncode hRef.cols [0x48] = [0x48, 0xA5] ∧ codewordAt 16 [0x48, 0xA4] 0 = flipAt (codewordAt 16 [0x48, 0xA5] 0) [15]) ∧
    (secEncode hWeak.cols [0x48] = [0x48, 0x0F] ∧
      codewordAt 16 [0xC8, 0x0F] 0 = flipAt (codewordAt 16 [0x48, 0x0F] 0) [0]) := by decide +kernel
/-- Program P3: codeword 0 with indices 3 and 12 flipped. -/
theorem witness_SecdedReceptionCorrectsTwoFlipsUnderV3V4 :
    V3 hRef.cols ∧ V4 hRef.cols ∧ secEncode hRef.cols [0x48] = [0x48, 0xA5] ∧ [3, 12].Pairwise (· < ·) ∧
    (∀ b ∈ [3, 12], b < 16) ∧ codewordAt 16 [0x58, 0xAD] 0 = flipAt (codewordAt 16 [0x48, 0xA5] 0) [3, 12] :=
  ⟨test_hRef_v3, test_hRef_v4, by decide +kernel, by decide, by decide, by decide +kernel⟩
/-- H_ref, whose R is the identity. -/
theorem witness_DoubleFlipCorrectionIffV3V4 :
    ∀ x < 256, ssyn hRef.cols ((BitVec.ofNat 8 x).setWidth 16) = 0 → x = 0 := test_hRef_R_invertible
theorem witness_RecvLeavesSyndromesAbove12Alone :
    0 < 8 * [(0x80 : Byte), 0x10].length / 12 ∧ 13 ≤ (hsyn (codewordAt 12 [0x80, 0x10] 0)).toNat := by decide +kernel
theorem witness_UnlocatedCodewordsPassThrough :
    0 < [(0xA8 : Byte), 0xA5].length / 2 ∧ ssyn hRef.cols (codewordAt 16 [0xA8, 0xA5] 0) ≠ 0 ∧
    sloc1 hRef.cols (ssyn hRef.cols (codewordAt 16 [0xA8, 0xA5] 0)) = none ∧
    sloc2 hRef.cols (ssyn hRef.cols (codewordAt 16 [0xA8, 0xA5] 0)) = none := by decide +kernel
theorem witness_ResetIsReadyForAnyOperation : wellFormed .b2g resetOperands = true ∧ wellFormed .henc resetOperands = true := by
  decide
/-- From reset, HENC presented and performed. -/
theorem witness_RunsKeepTheConfiguration : ∃ t, Run State.reset t ∧ t.out = vectorPorts (henc 0x41) :=
  ⟨(State.reset.present 0 (onA 0x41)).drive (vectorPorts (henc 0x41)),
   .step (.present 0 (onA 0x41) (.start _)) rfl, rfl⟩
/-- A state with the invariant, and the next one after check. -/
theorem witness_StepKeepsTheFormOfResults :
    ∃ s t : State, ResultsInv s ∧ step s = .next t ∧ t.returned = some (.report [(0, 0)]) :=
  ⟨(machine hRef .report resetOperands).present 17 (onBuf [0x09, 0x10]), _,
   ⟨fun _ h => (by cases h), fun _ h => (by cases h)⟩, rfl, by decide +kernel⟩

end Sys2Proof.Tests
end

/-! ### Runs and reset

A transaction runs the operation it presents, and no action at the boundary writes the configuration (10_state.md R23,
R32; 70_reset_and_hazards.md R166, R167, R175, R176). -/

section
namespace Sys2Proof.Machine

@[simp] theorem decode_encode (i : Instr) : decode (encode i) = .ok i := by cases i <;> rfl

theorem step_of_decode {s : State} {op : BitVec 5} {i : Instr} (hop : s.op = some op) (hi : decode op = .ok i) :
    step s = exec i s := by
  simp [step, hop, hi]

/-- The caller presents an operation and the machine performs it (30_encoding.md R60). -/
theorem step_present_encode (s : State) (i : Instr) (o : Operands) :
    step (s.present (encode i) o) = exec i (s.present (encode i) o) :=
  step_of_decode rfl (decode_encode i)

theorem group_size_ne_zero_of_wellFormed {o : Operands} (h : wellFormed .b2g o = true) : o.g ≠ 0 :=
  Nat.one_le_iff_ne_zero.mp (of_decide_eq_true h)

/-- Well-formed operands are enough for the operation they belong to: its transaction completes. -/
theorem exec_present_answers (s : State) (op : BitVec 5) {i : Instr} {o : Operands} (h : wellFormed i o = true) :
    ∃ t, exec i (s.present op o) = .next t :=
  exec_answers i _ fun hi => group_size_ne_zero_of_wellFormed (hi ▸ h)

theorem exec_keeps_cfg {i : Instr} {s t : State} (h : exec i s = .next t) : t.cfg = s.cfg := by
  obtain ⟨-, p, rfl⟩ | ⟨-, r, rfl⟩ := exec_next_cases h
  · exact drive_cfg s p
  · exact giveBack_cfg s r

theorem step_keeps_cfg {s t : State} (h : step s = .next t) : t.cfg = s.cfg := by
  obtain ⟨-, rfl⟩ | ⟨op, i, -, -, hexec⟩ := step_next_cases h
  · exact idle_cfg s
  · exact exec_keeps_cfg hexec

theorem Run.keeps_cfg {s t : State} (h : Run s t) : t.cfg = s.cfg := by
  induction h with
  | start => rfl
  | step _ hstep ih => exact (step_keeps_cfg hstep).trans ih
  | present op o _ ih => exact (present_cfg _ op o).trans ih
  | withdraw _ ih => exact (withdraw_cfg _).trans ih

/-- The form of results asks nothing of a state in which nothing is returned. -/
theorem ResultsInv_of_returned_none {s : State} (h : s.returned = none) : ResultsInv s := by
  simp [ResultsInv, h]

/-- Settles O55: each step and each action of the caller keeps the configuration. -/
theorem runsKeepTheConfiguration : Obligations.RunsKeepTheConfiguration :=
  ⟨fun _ _ h => h.keeps_cfg, fun _ h => h.keeps_cfg⟩

/-- Settles O54: the configured values stand in `State.reset`, the validation in the type of H, and the first transaction
completes since its operands are well formed. -/
theorem resetIsReadyForAnyOperation : Obligations.ResetIsReadyForAnyOperation := by
  refine ⟨rfl, rfl, rfl, fun s => ⟨ParityMatrix_v1 s.cfg.H, ParityMatrix_v2 s.cfg.H⟩, fun i o hwf => ?_⟩
  obtain ⟨t, ht⟩ := exec_present_answers State.reset (encode i) hwf
  exact ⟨t, (step_present_encode _ i o).trans ht, ht⟩

/-- Settles O57: nothing has been returned at reset. -/
theorem resetHasTheFormOfResults : Obligations.ResetHasTheFormOfResults := ResultsInv_of_returned_none rfl

end Sys2Proof.Machine
end

/-! ### The SECDED code as linear algebra over GF(2)

With H = [P | R], a codeword is its data word plus its parity word (10_state.md R26): `P·d` is the syndrome of the data
word of d, `R·x` the syndrome of the parity word of x, and SENC(d) has the parity byte `P·d`. -/

section
namespace Sys2Proof.Machine

/-! Sums of bits, and induction over GF(2) vectors. -/

theorem xorAll_append (s t : List Bool) : xorAll (s ++ t) = (xorAll s ^^ xorAll t) := by
  induction s with
  | nil => simp
  | cons b s ih => simp [ih]

/-- Of a sum over the indices below n, a unit vector picks the term at its own index. -/
theorem xorAll_range_and_beq (n b : Nat) (f : Nat → Bool) :
    xorAll ((List.range n).map fun j => f j && (j == b)) = (decide (b < n) && f b) := by
  induction n with
  | zero => simp
  | succ n ih =>
    rw [List.range_succ, List.map_append, xorAll_append, ih]
    rcases Nat.lt_trichotomy b n with h | rfl | h
    · simp [h, Nat.lt_succ_of_lt h, beq_false_of_ne h.ne']
    · simp
    · simp [Nat.not_lt.mpr h.le, Nat.not_lt.mpr (Nat.succ_le_of_lt h), beq_false_of_ne h.ne]

/-- What holds of 0 and of the unit vectors, and of a sum when it holds of both terms, holds of every word. -/
theorem xor_induction {n : Nat} {p : BitVec n → Prop} (zero : p 0#n) (unit : ∀ j < n, p (unitAt n j))
    (xor : ∀ v w, p v → p w → p (v ^^^ w)) (v : BitVec n) : p v := by
  have hsupported : ∀ m ≤ n, ∀ v : BitVec n, (∀ i, m ≤ i → bitAt v i = false) → p v := by
    intro m
    induction m with
    | zero =>
      intro _ v hv
      rwa [eq_of_bitAt_eq (v := v) (w := 0#n) fun i _ => (hv i i.zero_le).trans (bitAt_zero n i).symm]
    | succ m ih =>
      intro hm v hv
      cases hbit : bitAt v m with
      | false =>
        refine ih (by omega) v fun i hi => ?_
        obtain rfl | hlt := hi.eq_or_lt
        · exact hbit
        · exact hv i hlt
      | true =>
        have hcleared : p (v ^^^ unitAt n m) := by
          refine ih (by omega) _ fun i hi => ?_
          obtain rfl | hlt := hi.eq_or_lt
          · rw [bitAt_xor, hbit, bitAt_unitAt]
            simp [Nat.lt_of_succ_le hm]
          · rw [bitAt_xor, hv i hlt, bitAt_unitAt]
            simp [hlt.ne']
        have hv' : v = v ^^^ unitAt n m ^^^ unitAt n m := by
          rw [BitVec.xor_assoc, BitVec.xor_self, BitVec.xor_zero]
        rw [hv']
        exact xor _ _ hcleared (unit m hm)
  exact hsupported n le_rfl v fun i hi => bitAt_of_le v hi

/-! Data words and parity words. -/

/-- The word with data byte d and parity byte 0. -/
def dataWord (d : Byte) : BitVec 16 := ofBits 16 (bitAt d)

@[simp] theorem bitAt_dataWord (d : Byte) (i : Nat) : bitAt (dataWord d) i = bitAt d i := by
  by_cases h : i < 16
  · simp [dataWord, h]
  · rw [bitAt_of_le _ (by omega), bitAt_of_le _ (by omega)]

@[simp] theorem dataWord_zero : dataWord 0#8 = 0#16 :=
  eq_of_bitAt_eq fun i _ => by rw [bitAt_dataWord, bitAt_zero, bitAt_zero]

theorem dataWord_xor (d d' : Byte) : dataWord (d ^^^ d') = dataWord d ^^^ dataWord d' :=
  eq_of_bitAt_eq fun i _ => by rw [bitAt_xor]; simp only [bitAt_dataWord, bitAt_xor]

theorem dataWord_unitAt {j : Nat} (hj : j < 8) : dataWord (unitAt 8 j) = unitAt 16 j :=
  eq_of_bitAt_eq fun i hi => by
    rw [bitAt_dataWord, bitAt_unitAt, bitAt_unitAt]
    by_cases h : i = j
    · subst h; simp [hi, hj]
    · simp [beq_false_of_ne h]

/-- The word with data byte 0 and parity byte x. -/
theorem bitAt_parityWord (x : Byte) (i : Nat) : bitAt (x.setWidth 16) i = (decide (8 ≤ i) && bitAt x (i - 8)) := by
  simp [bitAt, BitVec.getMsbD_setWidth]

theorem parityWord_unitAt {r : Nat} (hr : r < 8) : (unitAt 8 r).setWidth 16 = unitAt 16 (8 + r) :=
  eq_of_bitAt_eq fun i hi => by
    rw [bitAt_parityWord, bitAt_unitAt, bitAt_unitAt]
    rw [Bool.eq_iff_iff]
    simp only [Bool.and_eq_true, decide_eq_true_eq, beq_iff_eq]
    omega

/-! The syndrome is linear. -/

theorem ssyn_xor (H : Columns) (c c' : BitVec 16) : ssyn H (c ^^^ c') = ssyn H c ^^^ ssyn H c' :=
  eq_of_bitAt_eq fun r hr => by
    rw [bitAt_xor, bitAt_ssyn H _ r hr, bitAt_ssyn H _ r hr, bitAt_ssyn H _ r hr, ← xorAll_map_xor]
    simp only [bitAt_xor, Bool.and_xor_distrib_left]

@[simp] theorem ssyn_zero (H : Columns) : ssyn H 0#16 = 0#8 :=
  eq_of_bitAt_eq fun r hr => by simp [bitAt_ssyn H _ r hr]

/-- The syndrome of a unit vector is its column (42_secded.md R112). -/
theorem ssyn_unitAt (H : Columns) {j : Nat} (hj : j < 16) : ssyn H (unitAt 16 j) = col H j :=
  eq_of_bitAt_eq fun r hr => by
    have hterm : ((List.range 16).map fun k => entry H r k && bitAt (unitAt 16 j) k) =
        (List.range 16).map fun k => entry H r k && (k == j) :=
      List.map_congr_left fun k hk => by simp [List.mem_range.mp hk]
    rw [bitAt_ssyn H _ r hr, hterm, xorAll_range_and_beq]
    simp [hj, entry]

/-- `P·d`: only the columns of P meet a data word (10_state.md R26). -/
theorem bitAt_ssyn_dataWord (H : Columns) (d : Byte) {r : Nat} (hr : r < 8) :
    bitAt (ssyn H (dataWord d)) r = xorAll ((List.range 8).map fun j => entry H r j && bitAt d j) := by
  have hrange : List.range 16 = List.range 8 ++ (List.range 8).map (8 + ·) := rfl
  have hright : ((List.range 8).map fun j => entry H r (8 + j) && bitAt d (8 + j)) =
      (List.range 8).map fun _ => false :=
    List.map_congr_left fun j _ => by rw [bitAt_of_le d (Nat.le_add_right 8 j), Bool.and_false]
  rw [bitAt_ssyn H _ r hr, hrange]
  simp only [bitAt_dataWord, List.map_append, List.map_map, xorAll_append, Function.comp_def, hright, xorAll_map_false,
    Bool.xor_false]

/-! The codeword and its syndrome. -/

/-- SENC(d) is the data word of d plus the parity word of `P·d` (42_secded.md R110, 10_state.md R26). -/
theorem senc_eq (H : Columns) (d : Byte) : senc H d = dataWord d ^^^ (ssyn H (dataWord d)).setWidth 16 :=
  eq_of_bitAt_eq fun i hi => by
    rw [bitAt_senc H d i hi, bitAt_xor, bitAt_dataWord, bitAt_parityWord]
    split
    case isTrue h => simp [Nat.not_le.mpr h]
    case isFalse h =>
      have h8 : 8 ≤ i := Nat.not_lt.mp h
      rw [bitAt_ssyn_dataWord H d (by omega), bitAt_of_le d h8]
      simp [h8]

/-- The syndrome of the codeword of d is `P·d ^ R·(P·d)` (10_state.md R26). -/
theorem ssyn_senc (H : Columns) (d : Byte) :
    ssyn H (senc H d) = ssyn H (dataWord d) ^^^ ssyn H ((ssyn H (dataWord d)).setWidth 16) := by
  rw [senc_eq, ssyn_xor]

@[simp] theorem sdec_senc (H : Columns) (d : Byte) : sdec (senc H d) = d :=
  eq_of_bitAt_eq fun j hj => by rw [bitAt_sdec _ j hj, bitAt_senc H d j (by omega), if_pos hj]

@[simp] theorem senc_zero (H : Columns) : senc H 0#8 = 0#16 := by
  rw [senc_eq, dataWord_zero, ssyn_zero]
  rfl

/-- A word with data byte 0 is a parity word. -/
theorem exists_parityWord {c : BitVec 16} (h : sdec c = 0#8) : ∃ x : Byte, c = x.setWidth 16 := by
  refine ⟨c.setWidth 8, eq_of_bitAt_eq fun i hi => ?_⟩
  rw [bitAt_parityWord]
  by_cases h8 : 8 ≤ i
  · simp [bitAt, BitVec.getMsbD_setWidth, h8]
  · rw [← bitAt_sdec c i (by omega), h]
    simp [h8]

theorem sdec_xor (c c' : BitVec 16) : sdec (c ^^^ c') = sdec c ^^^ sdec c' :=
  eq_of_bitAt_eq fun j hj => by simp [bitAt_sdec _ j hj]

theorem sdec_parityWord (x : Byte) : sdec (x.setWidth 16) = 0#8 :=
  eq_of_bitAt_eq fun j hj => by
    rw [bitAt_sdec _ j hj, bitAt_parityWord]
    simp [Nat.not_le.mpr hj]

/-! V2 in terms of P and R. -/

theorem v2_iff (H : Columns) : V2 H ↔ ∀ d : Byte, ssyn H (senc H d) = 0#8 :=
  ⟨fun h d => by simpa using h d.toNat d.isLt, fun h _ _ => h _⟩

/-- V2 says that R maps every `P·d` to itself (10_state.md R26). -/
theorem v2_iff_fixes_data_syndromes (H : Columns) :
    V2 H ↔ ∀ d : Byte, ssyn H ((ssyn H (dataWord d)).setWidth 16) = ssyn H (dataWord d) := by
  simp only [v2_iff, ssyn_senc, BitVec.xor_eq_zero_iff, eq_comm (a := ssyn H (dataWord _))]

/-- It is enough to look at the columns of P, which are the `P·d` of the unit vectors (10_state.md R26). -/
theorem v2_iff_fixes_columns (H : Columns) : V2 H ↔ ∀ j < 8, ssyn H ((col H j).setWidth 16) = col H j := by
  have hcol {j : Nat} (hj : j < 8) : ssyn H (dataWord (unitAt 8 j)) = col H j := by
    rw [dataWord_unitAt hj, ssyn_unitAt H (by omega)]
  rw [v2_iff_fixes_data_syndromes]
  constructor
  · intro h j hj
    rw [← hcol hj, h]
  · intro h d
    induction d using xor_induction with
    | zero => simp
    | unit j hj => rw [hcol hj, h j hj]
    | xor d d' hd hd' => rw [dataWord_xor, ssyn_xor, BitVec.setWidth_xor, ssyn_xor, hd, hd']

/-- With R = I the syndrome of a parity word is its parity byte (10_state.md R26). -/
theorem ssyn_parityWord_of_unit_columns {H : Columns} (h : ∀ r < 8, col H (8 + r) = unitAt 8 r) (x : Byte) :
    ssyn H (x.setWidth 16) = x := by
  induction x using xor_induction with
  | zero => simp
  | unit r hr => rw [parityWord_unitAt hr, ssyn_unitAt H (by omega), h r hr]
  | xor v w hv hw => rw [BitVec.setWidth_xor, ssyn_xor, hv, hw]

/-- Under V2 a word of zero syndrome is a codeword plus a parity word of zero syndrome. -/
theorem exists_senc_xor_parityWord {H : Columns} (hV2 : V2 H) {c : BitVec 16} (hc : ssyn H c = 0#8) :
    ∃ x : Byte, c = senc H (sdec c) ^^^ x.setWidth 16 ∧ ssyn H (x.setWidth 16) = 0#8 := by
  obtain ⟨x, hx⟩ := exists_parityWord (c := senc H (sdec c) ^^^ c) (by simp [sdec_xor])
  refine ⟨x, ?_, ?_⟩
  · rw [← hx, ← BitVec.xor_assoc, BitVec.xor_self, BitVec.zero_xor]
  · rw [← hx, ssyn_xor, (v2_iff H).mp hV2, hc, BitVec.xor_self]

/-- Settles O27: V2 is about `P·d ^ R·(P·d)`, which is linear in d, so the unit vectors decide it. -/
theorem v2MeansRFixesP : Obligations.V2MeansRFixesP := fun H =>
  ⟨v2_iff_fixes_columns H,
    fun hunit => (v2_iff_fixes_columns H).mpr fun j _ => ssyn_parityWord_of_unit_columns hunit (col H j)⟩

/-- Settles O28: a parity word of zero syndrome can be a codeword only if it is 0, and any word of zero syndrome differs
from the codeword of its data byte by such a parity word. -/
theorem zeroSyndromeIsValidIffRInvertible : Obligations.ZeroSyndromeIsValidIffRInvertible := by
  intro H
  constructor
  · intro hvalid x hx
    obtain ⟨d, hd⟩ := hvalid _ hx
    have hd0 : d = 0#8 := by rw [← sdec_senc H.cols d, ← hd, sdec_parityWord]
    have hx0 : x.setWidth 16 = 0#16 := by rw [hd, hd0, senc_zero]
    simpa using congrArg (BitVec.setWidth 8) hx0
  · intro hR c hc
    obtain ⟨x, hcx, hx⟩ := exists_senc_xor_parityWord (ParityMatrix_v2 H) hc
    refine ⟨sdec c, hcx.trans ?_⟩
    rw [hR x hx]
    simp

end Sys2Proof.Machine
end

/-! ### The codewords of a buffer, one by one

check and decode see the list of the complete codewords and nothing else (20_memory.md R46), and treat each codeword on its
own (R51). -/

section
namespace Sys2Proof.Machine

theorem givesBack_giveBack (s : State) (r : Returned) : givesBack (.next (s.giveBack r)) s r := ⟨_, rfl⟩

/-! The complete codewords of a buffer. -/

/-- The complete codewords of width W, in ascending index (20_memory.md R43, R46). -/
def codewords (W : Nat) (buf : Buffer) : List (BitVec W) :=
  (List.range (8 * buf.length / W)).map (codewordAt W buf)

/-- The codewords are the words of the groups B2G cuts. -/
theorem map_b2g_eq_map_codewords {α : Type} (W : Nat) (buf : Buffer) (f : BitVec W → α) :
    ((b2g buf W).map fun g => f (valOf W g)) = (codewords W buf).map f := by
  rw [b2g_map_valOf, codewords, List.map_map]
  rfl

theorem codewordAt_congr {W : Nat} {x y : Buffer} {j k : Nat}
    (h : ∀ b < W, streamBit x (j * W + b) = streamBit y (k * W + b)) : codewordAt W x j = codewordAt W y k :=
  ofBits_congr h

/-- Buffers that agree in number and bits of their codewords have the same codewords. -/
theorem codewords_congr {W : Nat} {x y : Buffer} (hcount : 8 * x.length / W = 8 * y.length / W)
    (hbits : ∀ n < W * (8 * x.length / W), streamBit x n = streamBit y n) : codewords W x = codewords W y := by
  rw [codewords, codewords, ← hcount]
  refine List.map_congr_left fun k hk => codewordAt_congr fun b hb => hbits _ ?_
  have hlt : W * k + b < 8 * x.length / W * W := Nat.mul_add_lt_mul_of_lt_of_lt (List.mem_range.mp hk) hb
  rwa [Nat.mul_comm k, Nat.mul_comm W (8 * x.length / W)]

/-- The stream of `x ++ y` is that of x and then that of y. -/
theorem streamBit_append (x y : Buffer) (n : Nat) :
    streamBit (x ++ y) n = if n < 8 * x.length then streamBit x n else streamBit y (n - 8 * x.length) := by
  have happend : bitsOf (x ++ y) = bitsOf x ++ bitsOf y := List.flatMap_append
  rw [← bitsOf_getD, happend]
  split
  next h => rw [List.getD_append _ _ _ _ (by simpa using h), bitsOf_getD]
  next h => rw [List.getD_append_right _ _ _ _ (by simpa using h), bitsOf_length, bitsOf_getD]

/-- Behind a whole number of codewords the codewords of y follow those of x. -/
theorem codewords_append {W n : Nat} (hW : 0 < W) {x : Buffer} (hx : 8 * x.length = n * W) (y : Buffer) :
    codewords W (x ++ y) = codewords W x ++ codewords W y := by
  have hcountx : 8 * x.length / W = n := by rw [hx, Nat.mul_div_cancel n hW]
  have hcount : 8 * (x ++ y).length / W = n + 8 * y.length / W := by
    rw [List.length_append, Nat.mul_add, hx, Nat.add_comm, Nat.add_mul_div_right _ n hW, Nat.add_comm]
  rw [codewords, codewords, codewords, hcount, hcountx, List.range_add, List.map_append, List.map_map]
  congr 1
  · refine List.map_congr_left fun k hk => codewordAt_congr fun b hb => ?_
    have hlt : W * k + b < n * W := Nat.mul_add_lt_mul_of_lt_of_lt (List.mem_range.mp hk) hb
    rw [streamBit_append, if_pos (by rwa [hx, Nat.mul_comm k])]
  · refine List.map_congr_left fun k _ => codewordAt_congr fun b _ => ?_
    have hnk : (n + k) * W + b = 8 * x.length + (k * W + b) := by rw [hx, Nat.add_mul, Nat.add_assoc]
    rw [streamBit_append, hnk, if_neg (by omega), Nat.add_sub_cancel_left]

theorem codewords_length_of_whole {W n : Nat} (hW : 0 < W) {x : Buffer} (hx : 8 * x.length = n * W) :
    (codewords W x).length = n := by
  rw [codewords, List.length_map, List.length_range, hx, Nat.mul_div_cancel n hW]

/-! What check and decode compute is a function of the codewords. -/

theorem hamCheck_eq (oor : HamEOor) (buf : Buffer) :
    hamCheck oor buf = reportOf ((codewords 12 buf).map (hchk oor)) :=
  congrArg reportOf (map_b2g_eq_map_codewords 12 buf (hchk oor))

theorem hamDecode_eq (buf : Buffer) : hamDecode buf = (codewords 12 buf).map hdec :=
  map_b2g_eq_map_codewords 12 buf hdec

theorem secCheck_eq (H : Columns) (buf : Buffer) : secCheck H buf = reportOf ((codewords 16 buf).map (schk H)) :=
  congrArg reportOf (map_b2g_eq_map_codewords 16 buf (schk H))

theorem secDecode_eq (buf : Buffer) : secDecode buf = (codewords 16 buf).map sdec :=
  map_b2g_eq_map_codewords 16 buf sdec

/-- In a report over `vs ++ ws` the entries of ws follow those of vs, their codeword indices moved by the number of vs. -/
theorem reportOf_append (vs ws : List Verdict) :
    reportOf (vs ++ ws) = reportOf vs ++ (reportOf ws).map fun kb => (vs.length + kb.1, kb.2) := by
  have hshift : ws.zipIdx vs.length = ws.zipIdx.map fun vk => (vk.1, vs.length + vk.2) := by
    simp [List.zipIdx_eq_map_add (i := vs.length), Nat.add_comm]
  simp [reportOf, List.zipIdx_append, hshift, List.map_flatMap, List.flatMap_map, Function.comp_def]

/-! Operations that read a buffer codeword by codeword. -/

/-- The caller presents another buffer. -/
def State.withBuf (s : State) (buf : Buffer) : State := { s with operands := { s.operands with buf := buf } }

/-- On every buffer presented in s, operation i returns F of the complete codewords of width W. -/
def ReadsCodewords (i : Instr) (W : Nat) (F : List (BitVec W) → Returned) (s : State) : Prop :=
  ∀ buf, givesBack (exec i (s.withBuf buf)) (s.withBuf buf) (F (codewords W buf))

theorem ReadsCodewords.of_giveBack {i : Instr} {W : Nat} {F : List (BitVec W) → Returned} {s : State}
    {value : Buffer → Returned} (hexec : ∀ buf, exec i (s.withBuf buf) = .next ((s.withBuf buf).giveBack (value buf)))
    (hvalue : ∀ buf, value buf = F (codewords W buf)) : ReadsCodewords i W F s := fun buf => by
  rw [hexec, hvalue]
  exact givesBack_giveBack _ _

theorem readsCodewords_check (s : State) :
    ReadsCodewords .check 12 (fun cs => .report (reportOf (cs.map (hchk s.cfg.hamEOor)))) s :=
  .of_giveBack (fun _ => rfl) fun buf => congrArg Returned.report (hamCheck_eq s.cfg.hamEOor buf)

theorem readsCodewords_decode (s : State) : ReadsCodewords .decode 12 (fun cs => .bytes (cs.map hdec)) s :=
  .of_giveBack (fun _ => rfl) fun buf => congrArg Returned.bytes (hamDecode_eq buf)

theorem readsCodewords_check2Bit (s : State) :
    ReadsCodewords .check2Bit 16 (fun cs => .report (reportOf (cs.map (schk s.cfg.H.cols)))) s :=
  .of_giveBack (fun _ => rfl) fun buf => congrArg Returned.report (secCheck_eq s.cfg.H.cols buf)

theorem readsCodewords_decode2Bit (s : State) : ReadsCodewords .decode2Bit 16 (fun cs => .bytes (cs.map sdec)) s :=
  .of_giveBack (fun _ => rfl) fun buf => congrArg Returned.bytes (secDecode_eq buf)

/-- Buffers with the same codewords give the same result. -/
theorem ReadsCodewords.same_result {i : Instr} {W : Nat} {F : List (BitVec W) → Returned} {s : State}
    (hi : ReadsCodewords i W F s) {x y : Buffer} (hxy : codewords W x = codewords W y) :
    ∃ r, givesBack (exec i (s.withBuf y)) (s.withBuf y) r ∧ givesBack (exec i (s.withBuf x)) (s.withBuf x) r :=
  ⟨F (codewords W y), hi y, hxy ▸ hi x⟩

/-- Settles O45: the four operations read the complete codewords alone, and these are the same in both buffers. -/
theorem trailingBitsHaveNoInfluence : Obligations.TrailingBitsHaveNoInfluence := by
  intro iW hiW s buf hcount hbits
  have hcw : codewords iW.2 buf = codewords iW.2 s.operands.buf := codewords_congr hcount hbits
  simp only [List.mem_cons, List.not_mem_nil, or_false] at hiW
  obtain rfl | rfl | rfl | rfl := hiW
  · exact (readsCodewords_check s).same_result hcw
  · exact (readsCodewords_decode s).same_result hcw
  · exact (readsCodewords_check2Bit s).same_result hcw
  · exact (readsCodewords_decode2Bit s).same_result hcw

/-- An operation that reports a verdict per codeword: behind n codewords the entries of y follow, moved by n. -/
theorem ReadsCodewords.report_append {i : Instr} {W n : Nat} {verdict : BitVec W → Verdict} {s : State}
    (hi : ReadsCodewords i W (fun cs => .report (reportOf (cs.map verdict))) s) (hW : 0 < W) {x : Buffer}
    (hx : 8 * x.length = n * W) (y : Buffer) :
    ∃ rx ry, givesBack (exec i (s.withBuf x)) (s.withBuf x) (.report rx) ∧
      givesBack (exec i (s.withBuf y)) (s.withBuf y) (.report ry) ∧
      givesBack (exec i (s.withBuf (x ++ y))) (s.withBuf (x ++ y))
        (.report (rx ++ ry.map fun kb => (n + kb.1, kb.2))) := by
  refine ⟨_, _, hi x, hi y, ?_⟩
  simpa only [codewords_append hW hx, List.map_append, reportOf_append, List.length_map,
    codewords_length_of_whole hW hx] using hi (x ++ y)

/-- An operation that extracts a byte per codeword: the data of x and then those of y. -/
theorem ReadsCodewords.bytes_append {i : Instr} {W n : Nat} {extract : BitVec W → Byte} {s : State}
    (hi : ReadsCodewords i W (fun cs => .bytes (cs.map extract)) s) (hW : 0 < W) {x : Buffer}
    (hx : 8 * x.length = n * W) (y : Buffer) :
    ∃ dx dy, givesBack (exec i (s.withBuf x)) (s.withBuf x) (.bytes dx) ∧
      givesBack (exec i (s.withBuf y)) (s.withBuf y) (.bytes dy) ∧
      givesBack (exec i (s.withBuf (x ++ y))) (s.withBuf (x ++ y)) (.bytes (dx ++ dy)) := by
  refine ⟨_, _, hi x, hi y, ?_⟩
  simpa only [codewords_append hW hx, List.map_append] using hi (x ++ y)

/-- Settles O46: the codewords of `x ++ y` are those of x and then those of y. -/
theorem codewordsAreProcessedIndependently : Obligations.CodewordsAreProcessedIndependently := by
  intro iW hiW s x y n hx
  simp only [List.mem_cons, List.not_mem_nil, or_false] at hiW
  obtain rfl | rfl := hiW
  · obtain ⟨rx, ry, hrx, hry, hr⟩ := (readsCodewords_check s).report_append (by decide) hx y
    obtain ⟨dx, dy, hdx, hdy, hd⟩ := (readsCodewords_decode s).bytes_append (by decide) hx y
    exact ⟨rx, ry, dx, dy, hrx, hry, hr, hdx, hdy, hd⟩
  · obtain ⟨rx, ry, hrx, hry, hr⟩ := (readsCodewords_check2Bit s).report_append (by decide) hx y
    obtain ⟨dx, dy, hdx, hdy, hd⟩ := (readsCodewords_decode2Bit s).bytes_append (by decide) hx y
    exact ⟨rx, ry, dx, dy, hrx, hry, hr, hdx, hdy, hd⟩

end Sys2Proof.Machine
end

/-! ### What an operation reads

The results of an operation are a function of the operands (20_memory.md R51), and of H or HAM_E_OOR where its rule names
them (the head of 42_secded.md; 41_hamming.md R94). -/

section
namespace Sys2Proof.Machine

/-- If x completes, y completes with the same returned value, and if i is of format CW with the same ports. -/
def SameResult (i : Instr) (x y : Host.Outcome State Fault Refusal) : Prop :=
  ∀ t, x = .next t → ∃ v, y = .next v ∧ v.returned = t.returned ∧ (i.isBuf = false → v.out = t.out)

theorem SameResult.drive (i : Instr) (s u : State) {p q : Ports} (h : p = q) :
    SameResult i (.next (s.drive p)) (.next (u.drive q)) := by
  rintro _ ⟨⟩
  exact ⟨u.drive q, rfl, rfl, fun _ => h.symm⟩

theorem SameResult.giveBack {i : Instr} (hi : i.isBuf = true) (s u : State) {r r' : Returned} (h : r = r') :
    SameResult i (.next (s.giveBack r)) (.next (u.giveBack r')) := by
  rintro _ ⟨⟩
  exact ⟨u.giveBack r', rfl, congrArg some h.symm, by simp [hi]⟩

theorem SameResult.of_refused {i : Instr} {x y : Host.Outcome State Fault Refusal} {e : Refusal} (h : x = .refused e) :
    SameResult i x y := fun _ hx => nomatch h.symm.trans hx

/-- B2G with g ≥ 1 completes with the groups of its data (40_bitstream_adapter.md R80). -/
theorem exec_b2g_of_ne_zero {s : State} (h : s.operands.g ≠ 0) :
    exec .b2g s = .next (s.giveBack (.groups (b2g s.operands.buf s.operands.g))) := if_neg h

/-- Settles O8: one case for each format and each set of inputs read; B2G is refused in both states or in neither. -/
theorem resultsDependOnlyOnWhatIsRead : Obligations.ResultsDependOnlyOnWhatIsRead := by
  intro i s u t hoperands hH hoor
  suffices hsame : SameResult i (exec i s) (exec i u) from hsame t
  cases i with
  | henc | hsyn | hdec | sdec => exact .drive _ s u (by rw [hoperands])
  | senc | ssyn | sloc1 | sloc2 | schk => exact .drive _ s u (by rw [hoperands, hH (by decide)])
  | hloc | hchk => exact .drive _ s u (by rw [hoperands, hoor (by decide)])
  | encode | decode | fixErrors | pack | patch | fixErrors2Bit | decode2Bit =>
    exact .giveBack rfl s u (by rw [hoperands])
  | encode2Bit | check2Bit => exact .giveBack rfl s u (by rw [hoperands, hH (by decide)])
  | check => exact .giveBack rfl s u (by rw [hoperands, hoor (by decide)])
  | b2g =>
    by_cases hg : s.operands.g = 0
    · exact .of_refused (execB2g_refused s hg)
    · rw [exec_b2g_of_ne_zero hg, exec_b2g_of_ne_zero (hoperands ▸ hg)]
      exact .giveBack rfl s u (by rw [hoperands])

end Sys2Proof.Machine
end

/-! ### Operation numbers

The three fields of an operation number determine it (30_encoding.md R61), so the decoder, which reads the fields, inverts
the encoder, which is the table (R62); the numbers left over are those of R71. -/

section
namespace Sys2Proof.Machine

/-- The format, the code and the function are all of an operation number (30_encoding.md R61). -/
theorem toNat_eq_fields (op : BitVec 5) :
    op.toNat = 16 * (op.getLsbD 4).toNat + 8 * (op.getLsbD 3).toNat + (op.setWidth 3).toNat := by
  decide +revert

/-- A number that decodes to an operation is the operation's number in the table. -/
theorem encode_of_decode {op : BitVec 5} {i : Instr} (h : decode op = .ok i) : encode i = op := by
  apply BitVec.eq_of_toNat_eq
  rw [toNat_eq_fields op]
  unfold decode at h
  split at h <;> cases h
  all_goals
    rename_i hformat hcode hfunction
    rw [hformat, hcode, hfunction]
    rfl

/-- The numbers that select no operation (30_encoding.md R71). -/
def reservedNumbers : List Nat := [5, 6, 7, 14, 15, 23, 28, 29, 30, 31]

theorem decode_eq_error_iff (op : BitVec 5) : decode op = .error (.reserved op) ↔ op.toNat ∈ reservedNumbers := by
  decide +revert

/-- The decoder names the number it was given. -/
theorem eq_of_decode_eq_error {op op' : BitVec 5} (h : decode op = .error (.reserved op')) : op' = op := by
  unfold decode at h
  split at h <;> cases h
  rfl

theorem forall_decode_ne_ok_iff (op : BitVec 5) : (∀ i, decode op ≠ .ok i) ↔ decode op = .error (.reserved op) := by
  cases h : decode op with
  | ok i => simp
  | error e =>
    cases e with
    | reserved op' => simp [eq_of_decode_eq_error h]

theorem step_of_decode_eq_error {s : State} {op : BitVec 5} (hop : s.op = some op)
    (h : decode op = .error (.reserved op)) : step s = .refused (.reservedOperation op) := by
  simp [step, hop, h]

/-- A table word that carries the number of an operation is read as that operation. -/
theorem decodeTableWord_eq_some {w : Nat} {i : Instr} (n : Nat) (h : opOfWord w = encode i) :
    decodeTableWord n w = some i := by
  simp [decodeTableWord, h]

/-- Settles O1: the table's numbers have the operations' fields, and the fields determine the number. -/
theorem decodeInvertsEncode : Obligations.DecodeInvertsEncode :=
  ⟨decode_encode, fun _ _ => encode_of_decode⟩

/-- Settles O2: each word carries the number of its operation. -/
theorem tableWordsDecode : Obligations.TableWordsDecode :=
  have word {w : Nat} {i : Instr} : opOfWord w = encode i → decodeTableWord 8 w = some i := decodeTableWord_eq_some 8
  ⟨word rfl, word rfl, word rfl, word rfl, word rfl, word rfl, word rfl, word rfl⟩

/-- Settles O3: the decoder answers an error on exactly the ten numbers, and the step passes it on. -/
theorem reservedNumbersAreRefused : Obligations.ReservedNumbersAreRefused := fun _ op =>
  ⟨(decode_eq_error_iff op).symm.trans (forall_decode_ne_ok_iff op).symm,
    fun hop hreserved => step_of_decode_eq_error hop ((decode_eq_error_iff op).mpr hreserved)⟩

/-- Settles O4: the step dispatches on the decoded operation. -/
theorem stepRunsThePresentedOperation : Obligations.StepRunsThePresentedOperation := fun _ _ _ => step_of_decode

end Sys2Proof.Machine
end

/-! ### The ports of the codeword operations

An operand narrower than port `a` is its low-order bits, and a result leaves the rest of the output ports 0 (30_encoding.md
R63, R66). -/

section
namespace Sys2Proof.Machine

/-! The input port. -/

/-- The caller presents another value on port `a`. -/
def State.withPortA (s : State) (a : BitVec 16) : State := { s with operands := { s.operands with a := a } }

/-- Whatever stands on port `a`, operation i drives the ports f of the w low-order bits. -/
def ReadsLowBits (i : Instr) (w : Nat) (f : BitVec w → Ports) (s : State) : Prop :=
  ∀ a, exec i (s.withPortA a) = .next ((s.withPortA a).drive (f (a.setWidth w)))

theorem setWidth_congr {n w : Nat} {a b : BitVec n} (h : ∀ k < w, a.getLsbD k = b.getLsbD k) :
    a.setWidth w = b.setWidth w :=
  BitVec.eq_of_getLsbD_eq fun k hk => by simp [hk, h k hk]

/-- Two values of port `a` that agree on the operand's bits give the same ports. -/
theorem ReadsLowBits.same_ports {i : Instr} {w : Nat} {f : BitVec w → Ports} {s : State} (hi : ReadsLowBits i w f s)
    {a : BitVec 16} (ha : ∀ k < w, a.getLsbD k = s.operands.a.getLsbD k) :
    ∃ t u, exec i s = .next t ∧ exec i (s.withPortA a) = .next u ∧ u.out = t.out :=
  ⟨_, _, hi s.operands.a, hi a, congrArg f (setWidth_congr ha)⟩

/-- Settles O9: each operation reads its operand from the low-order bits of port `a`. -/
theorem unusedInputBitsAreIgnored : Obligations.UnusedInputBitsAreIgnored := by
  intro iw hiw s a ha
  simp only [List.mem_cons, List.not_mem_nil, or_false] at hiw
  obtain rfl | rfl | rfl | rfl | rfl | rfl | rfl | rfl := hiw
  · exact ReadsLowBits.same_ports (f := fun d => vectorPorts (henc d)) (fun _ => rfl) ha
  · exact ReadsLowBits.same_ports (f := fun c => vectorPorts (hsyn c)) (fun _ => rfl) ha
  · exact ReadsLowBits.same_ports (f := fun e => verdictPorts (hloc s.cfg.hamEOor e)) (fun _ => rfl) ha
  · exact ReadsLowBits.same_ports (f := fun c => verdictPorts (hchk s.cfg.hamEOor c)) (fun _ => rfl) ha
  · exact ReadsLowBits.same_ports (f := fun c => vectorPorts (hdec c)) (fun _ => rfl) ha
  · exact ReadsLowBits.same_ports (f := fun d => vectorPorts (senc s.cfg.H.cols d)) (fun _ => rfl) ha
  · exact ReadsLowBits.same_ports (f := fun y => hitPorts1 (sloc1 s.cfg.H.cols y)) (fun _ => rfl) ha
  · exact ReadsLowBits.same_ports (f := fun y => hitPorts2 (sloc2 s.cfg.H.cols y)) (fun _ => rfl) ha

/-! The output ports: which form each operation's result has. -/

theorem drives_drive (s : State) (p : Ports) : drives (.next (s.drive p)) s p := rfl

theorem out_eq_of_drives {x : Host.Outcome State Fault Refusal} {s t : State} {p : Ports} (hp : drives x s p)
    (ht : x = .next t) : t.out = p := by
  cases hp.symm.trans ht
  rfl

/-- The operations with a vector result, with its width (30_encoding.md R63). -/
def vectorResults : List (Instr × Nat) := [(.henc, 12), (.hsyn, 4), (.hdec, 8), (.senc, 16), (.ssyn, 8), (.sdec, 8)]

theorem drives_vectorPorts {i : Instr} {w : Nat} (hi : (i, w) ∈ vectorResults) (s : State) :
    ∃ v : BitVec w, drives (exec i s) s (vectorPorts v) := by
  simp only [vectorResults, List.mem_cons, List.not_mem_nil, or_false, Prod.mk.injEq] at hi
  obtain ⟨rfl, rfl⟩ | ⟨rfl, rfl⟩ | ⟨rfl, rfl⟩ | ⟨rfl, rfl⟩ | ⟨rfl, rfl⟩ | ⟨rfl, rfl⟩ := hi
  all_goals exact ⟨_, drives_drive s _⟩

theorem vectorPorts_getLsbD_of_le {w : Nat} (v : BitVec w) {n : Nat} (h : w ≤ n) :
    (vectorPorts v).q.getLsbD n = false := by
  simp [vectorPorts, BitVec.getLsbD_of_ge v n h]

theorem hloc_ne_double (oor : HamEOor) (e : BitVec 4) (j k : Nat) : hloc oor e ≠ .double j k := by
  unfold hloc
  split
  · exact Verdict.noConfusion
  · split
    · exact Verdict.noConfusion
    · cases oor <;> exact Verdict.noConfusion

/-- A DOUBLE of SCHK is a pair that SLOC2 found (42_secded.md R118). -/
theorem schk_eq_double {H : Columns} {c : BitVec 16} {j k : Nat} (h : schk H c = .double j k) :
    sloc2 H (ssyn H c) = some (j, k) := by
  unfold schk at h
  split at h
  · cases h
  · split at h
    · cases h
    · split at h
      · cases h
        assumption
      · cases h

/-- The checkers put a verdict on the ports, and DOUBLE is one of SCHK's, with its pair in order. -/
theorem drives_verdictPorts {i : Instr} (hi : i ∈ [Instr.hloc, .hchk, .schk]) (s : State) :
    ∃ v, drives (exec i s) s (verdictPorts v) ∧ ∀ j k, v = .double j k → i = .schk ∧ j < k ∧ k < 16 := by
  simp only [List.mem_cons, List.not_mem_nil, or_false] at hi
  obtain rfl | rfl | rfl := hi
  · exact ⟨_, drives_drive s _, fun j k h => absurd h (hloc_ne_double _ _ j k)⟩
  · exact ⟨_, drives_drive s _, fun j k h => absurd h (hloc_ne_double _ _ j k)⟩
  · refine ⟨_, drives_drive s _, fun j k h => ?_⟩
    obtain ⟨hjk, hk, -⟩ := sloc2_some (schk_eq_double h)
    exact ⟨rfl, hjk, hk⟩

theorem ofNat_lt_ofNat {j k : Nat} (hjk : j < k) (hk : k < 16) : BitVec.ofNat 4 j < BitVec.ofNat 4 k := by
  rw [BitVec.lt_def, BitVec.toNat_ofNat, BitVec.toNat_ofNat]
  omega

theorem firstIndex_eq_zero {v : Verdict} (h : classCode v = 0 ∨ classCode v = 3) : firstIndex v = 0 := by
  cases v with
  | none | unlocated => rfl
  | single j | double j k => simp [classCode] at h

theorem secondIndex_eq_zero {v : Verdict} (h : classCode v ≠ 2) : secondIndex v = 0 := by
  cases v with
  | none | single j | unlocated => rfl
  | double j k => exact absurd rfl h

theorem eq_double_of_classCode {v : Verdict} (h : classCode v = 2) : ∃ j k, v = .double j k := by
  cases v with
  | none | single j | unlocated => simp [classCode] at h
  | double j k => exact ⟨j, k, rfl⟩

/-- The ports of SLOC1: hit on `cls[0]`, and an index only with a hit. -/
theorem hitPorts1_unused (r : Option Nat) :
    (hitPorts1 r).q = 0 ∧ (hitPorts1 r).cls.getLsbD 1 = false ∧ ((hitPorts1 r).cls = 0 → (hitPorts1 r).p0 = 0) ∧
      (hitPorts1 r).p1 = 0 := by
  cases r <;> simp [hitPorts1]

/-- The ports of SLOC2: hit on `cls[0]`, and indices only with a hit. -/
theorem hitPorts2_unused (r : Option (Nat × Nat)) :
    (hitPorts2 r).q = 0 ∧ (hitPorts2 r).cls.getLsbD 1 = false ∧
      ((hitPorts2 r).cls = 0 → (hitPorts2 r).p0 = 0 ∧ (hitPorts2 r).p1 = 0) := by
  cases r <;> simp [hitPorts2]

/-- The pair of a hit of SLOC2 is in order (42_secded.md R116). -/
theorem hitPorts2_sloc2_ordered {H : Columns} {y : Byte} (h : (hitPorts2 (sloc2 H y)).cls = 1) :
    (hitPorts2 (sloc2 H y)).p0 < (hitPorts2 (sloc2 H y)).p1 := by
  cases hpair : sloc2 H y with
  | none => simp [hpair, hitPorts2] at h
  | some jk =>
    obtain ⟨hjk, hk, -⟩ := sloc2_some hpair
    exact ofNat_lt_ofNat hjk hk

/-! The clauses of R63 and R66, one for each form of result. -/

theorem unused_zero_of_vector {i : Instr} {w : Nat} (hi : (i, w) ∈ vectorResults) {s t : State}
    (ht : exec i s = .next t) :
    (∀ n, w ≤ n → t.out.q.getLsbD n = false) ∧ t.out.cls = 0 ∧ t.out.p0 = 0 ∧ t.out.p1 = 0 := by
  obtain ⟨v, hv⟩ := drives_vectorPorts hi s
  rw [out_eq_of_drives hv ht]
  exact ⟨fun n => vectorPorts_getLsbD_of_le v, rfl, rfl, rfl⟩

theorem unused_zero_of_verdict {i : Instr} (hi : i ∈ [Instr.hloc, .hchk, .schk]) {s t : State}
    (ht : exec i s = .next t) :
    t.out.q = 0 ∧ (t.out.cls = 0 ∨ t.out.cls = 3 → t.out.p0 = 0) ∧ (t.out.cls ≠ 2 → t.out.p1 = 0) ∧
      (t.out.cls = 2 → i = .schk ∧ t.out.p0 < t.out.p1) := by
  obtain ⟨v, hv, hdouble⟩ := drives_verdictPorts hi s
  rw [out_eq_of_drives hv ht]
  refine ⟨rfl, firstIndex_eq_zero, secondIndex_eq_zero, fun hcls => ?_⟩
  obtain ⟨j, k, rfl⟩ := eq_double_of_classCode hcls
  obtain ⟨hschk, hjk, hk⟩ := hdouble j k rfl
  exact ⟨hschk, ofNat_lt_ofNat hjk hk⟩

theorem unused_zero_of_hit {i : Instr} (hi : i ∈ [Instr.sloc1, .sloc2]) {s t : State} (ht : exec i s = .next t) :
    t.out.q = 0 ∧ t.out.cls.getLsbD 1 = false ∧ (t.out.cls = 0 → t.out.p0 = 0 ∧ t.out.p1 = 0) ∧
      (i = .sloc1 → t.out.p1 = 0) ∧ (i = .sloc2 → t.out.cls = 1 → t.out.p0 < t.out.p1) := by
  simp only [List.mem_cons, List.not_mem_nil, or_false] at hi
  obtain rfl | rfl := hi
  · rw [out_eq_of_drives (drives_drive s _) ht]
    obtain ⟨hq, hcls, hp0, hp1⟩ := hitPorts1_unused (sloc1 s.cfg.H.cols (secSynOperand s.operands))
    exact ⟨hq, hcls, fun hmiss => ⟨hp0 hmiss, hp1⟩, fun _ => hp1, nofun⟩
  · rw [out_eq_of_drives (drives_drive s _) ht]
    obtain ⟨hq, hcls, hmiss⟩ := hitPorts2_unused (sloc2 s.cfg.H.cols (secSynOperand s.operands))
    exact ⟨hq, hcls, hmiss, nofun, fun _ => hitPorts2_sloc2_ordered⟩

/-- Settles O10: every codeword operation drives a vector, a verdict or a hit. -/
theorem unusedOutputBitsAreZero : Obligations.UnusedOutputBitsAreZero := fun _ _ _ ht =>
  ⟨fun _ hi => unused_zero_of_vector hi ht, fun hi => unused_zero_of_verdict hi ht, fun hi => unused_zero_of_hit hi ht⟩

end Sys2Proof.Machine
end

/-! ### The bit-stream adapter

B2G cuts the front of the stream, `g·((8·L) // g)` bits of it, and PACK puts groups behind one another and pads
(40_bitstream_adapter.md R80, R81); so PACK after B2G is the front of the stream (R82), and B2G after PACK loses nothing when
the pad bits are fewer than a group (R83). -/

section
namespace Sys2Proof.Machine

/-! The two transactions. -/

theorem givesBack_exec_b2g {s : State} (h : 1 ≤ s.operands.g) :
    givesBack (exec .b2g s) s (.groups (b2g s.operands.buf s.operands.g)) := by
  rw [exec_b2g_of_ne_zero (Nat.one_le_iff_ne_zero.mp h)]
  exact givesBack_giveBack s _

theorem givesBack_exec_pack (s : State) : givesBack (exec .pack s) s (.bytes (pack s.operands.groups)) :=
  givesBack_giveBack s _

/-! PACK after B2G. -/

/-- Consecutive slices of length g, put behind one another, are the front of the list. -/
theorem flatten_map_take_drop {α : Type} (l : List α) (g n : Nat) :
    ((List.range n).map fun m => (l.drop (m * g)).take g).flatten = l.take (n * g) := by
  induction n with
  | zero => simp
  | succ n ih => rw [List.range_succ, List.map_append, List.flatten_append, ih, Nat.succ_mul, List.take_add]; simp

/-- The groups of B2G hold the front of the stream and drop the rest (40_bitstream_adapter.md R80). -/
theorem b2g_flatten (data : Buffer) (g : Nat) :
    (b2g data g).flatten = (bitsOf data).take (g * (8 * data.length / g)) := by
  rw [b2g, flatten_map_take_drop, Nat.mul_comm]

theorem pack_b2g_length (data : Buffer) (g : Nat) :
    (pack (b2g data g)).length = (g * (8 * data.length / g) + 7) / 8 := by
  rw [pack_length, b2g_flatten, List.length_take, bitsOf_length, Nat.min_eq_left (Nat.mul_div_le _ _)]

theorem streamBit_pack_b2g (data : Buffer) (g n : Nat) :
    streamBit (pack (b2g data g)) n = if n < g * (8 * data.length / g) then streamBit data n else false := by
  rw [streamBit_pack, b2g_flatten, ← bitsOf_getD, List.getD_eq_getElem?_getD, List.getElem?_take]
  split
  · rw [List.getD_eq_getElem?_getD]
  · rfl

/-- Whole bytes leave nothing to drop and nothing to pad (40_bitstream_adapter.md R82). -/
theorem pack_b2g_eight (data : Buffer) : pack (b2g data 8) = data := by
  have hfront : 8 * (8 * data.length / 8) = 8 * data.length := by omega
  have hlength : (pack (b2g data 8)).length = data.length := by rw [pack_b2g_length]; omega
  refine eq_of_streamBit_eq hlength fun n hn => ?_
  rw [streamBit_pack_b2g, hfront, if_pos (hlength ▸ hn)]

/-! B2G after PACK. -/

/-- Lists of groups of one length W, equal in number and bit by bit, are equal. -/
theorem eq_of_groups_bits_eq {W : Nat} {xs ys : List Group} (hxs : ∀ x ∈ xs, x.length = W) (hys : ∀ y ∈ ys, y.length = W)
    (hcount : xs.length = ys.length)
    (hbits : ∀ m < xs.length, ∀ i < W, (xs.getD m []).getD i false = (ys.getD m []).getD i false) : xs = ys := by
  refine List.ext_getElem hcount fun m hx hy => ?_
  have hxm : xs[m].length = W := hxs _ (List.getElem_mem hx)
  have hym : ys[m].length = W := hys _ (List.getElem_mem hy)
  refine List.ext_getElem (hxm.trans hym.symm) fun i hi hi' => ?_
  have hbit := hbits m hx i (hxm ▸ hi)
  rwa [List.getD_eq_getElem _ _ hx, List.getD_eq_getElem _ _ hy, List.getD_eq_getElem _ _ hi,
    List.getD_eq_getElem _ _ hi'] at hbit

theorem length_of_mem_b2g {data : Buffer} {g : Nat} {c : Group} (h : c ∈ b2g data g) : c.length = g := by
  obtain ⟨m, hm, rfl⟩ := List.getElem_of_mem h
  rw [← List.getD_eq_getElem _ [] hm]
  exact b2g_group_length data g m (by simpa using hm)

/-- Fewer than W pad bits make no further group of W bits. -/
theorem count_of_padded_groups {W : Nat} (hW : 8 ≤ W) (n : Nat) : 8 * ((n * W + 7) / 8) / W = n := by
  refine Nat.div_eq_of_lt_le (by omega) ?_
  rw [Nat.succ_mul n W]
  omega

/-- For groups of one length of at least a byte the pad bits of PACK are dropped by B2G, and they alone
(40_bitstream_adapter.md R83). -/
theorem b2g_pack {W : Nat} (hW : 8 ≤ W) {groups : List Group} (h : ∀ c ∈ groups, c.length = W) :
    b2g (pack groups) W = groups := by
  have hcount : (b2g (pack groups) W).length = groups.length := by
    rw [b2g_length, pack_length, flatten_length_of_length groups h, count_of_padded_groups hW]
  refine eq_of_groups_bits_eq (fun _ => length_of_mem_b2g) h hcount fun m hm i hi => ?_
  rw [b2g_group_bit _ _ _ _ (b2g_length _ _ ▸ hm) hi, streamBit_pack, flatten_getD_of_length groups h m i hi]

/-! The statements. -/

/-- Settles O30: group m of B2G is the slice of the stream that begins at bit m·g. -/
theorem b2gCutsTheStream : Obligations.B2gCutsTheStream := by
  refine fun s => ⟨fun hg => ⟨_, givesBack_exec_b2g hg, b2g_length _ _, fun m hm => ?_⟩, execB2g_refused s⟩
  rw [b2g_length] at hm
  exact ⟨b2g_group_length _ _ m hm, fun i hi => b2g_group_bit _ _ m i hm hi⟩

/-- Settles O31: past the concatenated groups the bits of PACK are the default of the list, which is 0. -/
theorem packConcatenatesAndPads : Obligations.PackConcatenatesAndPads := by
  refine fun s => ⟨_, givesBack_exec_pack s, pack_length _, fun n _ => ?_⟩
  rw [streamBit_pack]
  split
  case isTrue => rfl
  case isFalse hpad => exact List.getD_eq_default _ _ (Nat.not_lt.mp hpad)

/-- Settles O32: the groups of B2G, put behind one another, are the front of the stream, which for g = 8 is all of it. -/
theorem packAfterB2g : Obligations.PackAfterB2g := fun s hg =>
  ⟨b2g s.operands.buf s.operands.g, _, givesBack_exec_b2g hg, givesBack_exec_pack _,
    fun h8 => h8 ▸ pack_b2g_eight s.operands.buf, pack_b2g_length _ _, fun n _ => streamBit_pack_b2g _ _ n⟩

/-- Settles O33: 12 and 16 bits are each at least a byte, so the pad bits make no group. -/
theorem b2gAfterPackOfCodewords : Obligations.B2gAfterPackOfCodewords := by
  intro W hW s cws hcws
  have hbyte : 8 ≤ W := by
    simp only [List.mem_cons, List.not_mem_nil, or_false] at hW
    omega
  refine ⟨_, givesBack_exec_pack _, ?_⟩
  have hcut := givesBack_exec_b2g (s := { s with operands := { s.operands with buf := pack cws, g := W } })
    (Nat.le_trans (by decide) hbyte)
  rwa [b2g_pack hbyte hcws] at hcut

end Sys2Proof.Machine
end

/-! ### Error reports

A report is, in ascending codeword index, the located bit indices of each codeword (41_hamming.md R100, 42_secded.md R126), so
what a verdict locates decides the form of the report. -/

section
namespace Sys2Proof.Machine

/-! Lists of entries, codeword by codeword. -/

/-- The entries of codewords 0 to n − 1 in ascending codeword index, codeword k with the bit indices `located k`. -/
def entries (n : Nat) (located : Nat → List Nat) : List ErrorPair :=
  (List.range n).flatMap fun k => (located k).map fun b => (k, b)

@[simp] theorem mem_entries {n : Nat} {located : Nat → List Nat} {k b : Nat} :
    (k, b) ∈ entries n located ↔ k < n ∧ b ∈ located k := by
  simp [entries]

theorem entries_congr {n : Nat} {f g : Nat → List Nat} (h : ∀ k < n, f k = g k) : entries n f = entries n g :=
  List.flatMap_congr fun k hk => by rw [h k (List.mem_range.mp hk)]

theorem entries_succ (n : Nat) (located : Nat → List Nat) :
    entries (n + 1) located = entries n located ++ (located n).map fun b => (n, b) := by
  simp [entries, List.range_succ]

/-- A relation holds along the entries when it holds along those of each codeword and from each codeword to a later one. -/
theorem pairwise_entries {R : ErrorPair → ErrorPair → Prop} {n : Nat} {located : Nat → List Nat}
    (within : ∀ k < n, (located k).Pairwise fun b c => R (k, b) (k, c))
    (across : ∀ j k b c, j < k → R (j, b) (k, c)) : (entries n located).Pairwise R := by
  rw [entries, List.pairwise_flatMap]
  refine ⟨fun k hk => List.pairwise_map.mpr (within k (List.mem_range.mp hk)), ?_⟩
  refine List.pairwise_lt_range.imp fun {j k} hjk x hx y hy => ?_
  obtain ⟨b, -, rfl⟩ := List.mem_map.mp hx
  obtain ⟨c, -, rfl⟩ := List.mem_map.mp hy
  exact across j k b c hjk

/-- The entries of one codeword are its own located indices. -/
theorem filter_entries (n : Nat) (located : Nat → List Nat) (k : Nat) :
    (entries n located).filter (fun x => x.1 == k) = if k < n then (located k).map fun b => (k, b) else [] := by
  induction n with
  | zero => rfl
  | succ n ih =>
    rw [entries_succ, List.filter_append, ih, List.filter_map]
    obtain h | rfl | h := Nat.lt_trichotomy k n
    · simp [Function.comp_def, h, Nat.lt_succ_of_lt h, h.ne']
    · simp [Function.comp_def]
    · simp [Function.comp_def, h.ne, Nat.not_lt.mpr h.le, Nat.not_lt.mpr (Nat.succ_le_of_lt h)]

/-! The report over the codewords of a buffer. -/

theorem reportOf_map_range (n : Nat) (verdict : Nat → Verdict) :
    reportOf ((List.range n).map verdict) = entries n fun k => reportedIndices (verdict k) := by
  induction n with
  | zero => rfl
  | succ n ih =>
    rw [List.range_succ, List.map_append, reportOf_append, ih, entries_succ]
    simp [reportOf]

theorem reportOf_map_codewords {W : Nat} (buf : Buffer) (verdict : BitVec W → Verdict) :
    reportOf ((codewords W buf).map verdict) =
      entries (8 * buf.length / W) fun k => reportedIndices (verdict (codewordAt W buf k)) := by
  rw [codewords, List.map_map, reportOf_map_range]
  rfl

theorem hamCheck_eq_entries (oor : HamEOor) (buf : Buffer) :
    hamCheck oor buf = entries (8 * buf.length / 12) fun k => reportedIndices (hchk oor (codewordAt 12 buf k)) := by
  rw [hamCheck_eq, reportOf_map_codewords]

theorem secCheck_eq_entries (H : Columns) (buf : Buffer) :
    secCheck H buf = entries (8 * buf.length / 16) fun k => reportedIndices (schk H (codewordAt 16 buf k)) := by
  rw [secCheck_eq, reportOf_map_codewords]

/-! What one verdict adds to a report. -/

theorem reportedIndices_length_le_two (v : Verdict) : (reportedIndices v).length ≤ 2 := by
  cases v <;> simp [reportedIndices]

/-- The located indices of a verdict rise and fit the ports p0 and p1 (30_encoding.md R63, R66). -/
def OrderedVerdict (v : Verdict) : Prop := (reportedIndices v).Pairwise (· < ·) ∧ ∀ b ∈ reportedIndices v, b < 16

theorem OrderedVerdict.none : OrderedVerdict .none := ⟨.nil, nofun⟩

theorem OrderedVerdict.unlocated : OrderedVerdict .unlocated := ⟨.nil, nofun⟩

theorem OrderedVerdict.single {p : Nat} (h : p < 16) : OrderedVerdict (.single p) :=
  ⟨List.pairwise_singleton _ p, by simpa [reportedIndices] using h⟩

theorem OrderedVerdict.double {p q : Nat} (hpq : p < q) (hq : q < 16) : OrderedVerdict (.double p q) :=
  ⟨List.pairwise_pair.mpr hpq, by simpa [reportedIndices] using ⟨hpq.trans hq, hq⟩⟩

/-- HLOC locates below the syndrome, under either value of HAM_E_OOR (41_hamming.md R94). -/
theorem hloc_ordered (oor : HamEOor) (e : BitVec 4) : OrderedVerdict (hloc oor e) := by
  have hsingle : OrderedVerdict (.single (e.toNat - 1)) := .single (by omega)
  obtain h | ⟨h1, h2⟩ | h : e.toNat = 0 ∨ (1 ≤ e.toNat ∧ e.toNat ≤ 12) ∨ 13 ≤ e.toNat := by omega
  · rw [hloc_zero oor e h]; exact .none
  · rw [hloc_inside oor e h1 h2]; exact hsingle
  · cases oor with
    | report => rw [hloc_report e h]; exact hsingle
    | drop => rw [hloc_drop e h]; exact .unlocated

theorem hchk_ordered (oor : HamEOor) (c : BitVec 12) : OrderedVerdict (hchk oor c) := hloc_ordered oor (hsyn c)

/-- A SINGLE of SCHK is a column that SLOC1 found (42_secded.md R118). -/
theorem schk_eq_single {H : Columns} {c : BitVec 16} {j : Nat} (h : schk H c = .single j) :
    sloc1 H (ssyn H c) = some j := by
  unfold schk at h
  split at h
  · cases h
  · split at h
    · cases h
      assumption
    · split at h <;> cases h

/-- SCHK locates what the two searches found (42_secded.md R118). -/
theorem schk_ordered (H : Columns) (c : BitVec 16) : OrderedVerdict (schk H c) := by
  cases h : schk H c with
  | none => exact .none
  | unlocated => exact .unlocated
  | single j => exact .single (sloc1_some (schk_eq_single h)).1
  | double j k =>
    obtain ⟨hjk, hk, -⟩ := sloc2_some (schk_eq_double h)
    exact .double hjk hk

/-! The form of returned values. -/

/-- The form of a report: ascending, bit indices below 16, at most two entries for a codeword. -/
def ReportForm (r : List ErrorPair) : Prop :=
  ascending r ∧ (∀ x ∈ r, x.2 < 16) ∧ ∀ k, (r.filter fun x => x.1 == k).length ≤ 2

/-- A report over ordered verdicts has the form. -/
theorem reportForm_entries (n : Nat) {verdict : Nat → Verdict} (h : ∀ k, OrderedVerdict (verdict k)) :
    ReportForm (entries n fun k => reportedIndices (verdict k)) := by
  refine ⟨?_, ?_, fun k => ?_⟩
  · exact pairwise_entries (fun k _ => (h k).1.imp fun hbc => .inr ⟨rfl, hbc⟩) fun _ _ _ _ hjk => .inl hjk
  · rintro ⟨k, b⟩ hx
    exact (h k).2 b (mem_entries.mp hx).2
  · rw [filter_entries]
    split
    · rw [List.length_map]
      exact reportedIndices_length_le_two (verdict k)
    · exact Nat.zero_le 2

theorem hamCheck_reportForm (oor : HamEOor) (buf : Buffer) : ReportForm (hamCheck oor buf) := by
  rw [hamCheck_eq_entries]
  exact reportForm_entries _ fun _ => hchk_ordered oor _

theorem secCheck_reportForm (H : Columns) (buf : Buffer) : ReportForm (secCheck H buf) := by
  rw [secCheck_eq_entries]
  exact reportForm_entries _ fun _ => schk_ordered H _

theorem ResultsInv_giveBack_bytes (s : State) (b : Buffer) : ResultsInv (s.giveBack (.bytes b)) := by
  simp [ResultsInv]

theorem ResultsInv_giveBack_report (s : State) {r : List ErrorPair} (h : ReportForm r) :
    ResultsInv (s.giveBack (.report r)) := by
  refine ⟨?_, nofun⟩
  rintro _ ⟨⟩
  exact h

theorem ResultsInv_giveBack_groups (s : State) {gs : List Group} (h : ∃ g, 1 ≤ g ∧ ∀ x ∈ gs, x.length = g) :
    ResultsInv (s.giveBack (.groups gs)) := by
  refine ⟨nofun, ?_⟩
  rintro _ ⟨⟩
  exact h

/-- Every operation returns nothing, bytes, a report over its codewords, or the groups of B2G. -/
theorem exec_results_form {i : Instr} {s t : State} (h : exec i s = .next t) : ResultsInv t := by
  cases i with
  | henc | hsyn | hloc | hchk | hdec | senc | ssyn | sloc1 | schk | sdec | sloc2 =>
    cases h
    exact ResultsInv_of_returned_none (drive_returned s _)
  | encode | fixErrors | decode | pack | patch | encode2Bit | fixErrors2Bit | decode2Bit =>
    cases h
    exact ResultsInv_giveBack_bytes s _
  | check =>
    cases h
    exact ResultsInv_giveBack_report s (hamCheck_reportForm s.cfg.hamEOor s.operands.buf)
  | check2Bit =>
    cases h
    exact ResultsInv_giveBack_report s (secCheck_reportForm s.cfg.H.cols s.operands.buf)
  | b2g =>
    by_cases hg : s.operands.g = 0
    · cases (execB2g_refused s hg).symm.trans h
    · cases (exec_b2g_of_ne_zero hg).symm.trans h
      exact ResultsInv_giveBack_groups s ⟨_, Nat.one_le_iff_ne_zero.mpr hg, fun _ => length_of_mem_b2g⟩

/-- Settles O56: what stands returned after a step was returned by the operation the step performed, if any. -/
theorem stepKeepsTheFormOfResults : Obligations.StepKeepsTheFormOfResults := fun s _ _ hstep => by
  obtain ⟨-, rfl⟩ | ⟨op, i, -, -, hexec⟩ := step_next_cases hstep
  · exact ResultsInv_of_returned_none (idle_returned s)
  · exact exec_results_form hexec

/-! The report of check. -/

/-- What HCHK locates is one bit (41_hamming.md R94, R95). -/
theorem mem_reportedIndices_hchk {oor : HamEOor} {c : BitVec 12} {b : Nat} :
    b ∈ reportedIndices (hchk oor c) ↔ hchk oor c = .single b := by
  cases h : hchk oor c with
  | none | unlocated => simp [reportedIndices]
  | single p => simp [reportedIndices, eq_comm]
  | double p q => exact absurd h (hloc_ne_double oor (hsyn c) p q)

theorem reportedIndices_hchk_pairwise (oor : HamEOor) (c : BitVec 12) (R : Nat → Nat → Prop) :
    (reportedIndices (hchk oor c)).Pairwise R := by
  cases h : hchk oor c with
  | none | unlocated => exact .nil
  | single p => exact List.pairwise_singleton R p
  | double p q => exact absurd h (hloc_ne_double oor (hsyn c) p q)

/-- Settles O40: the report holds the bits HCHK locates, at most one in a codeword. -/
theorem checkReportsTheLocatedBits : Obligations.CheckReportsTheLocatedBits := by
  refine fun s => ⟨_, givesBack_giveBack s (.report (hamCheck s.cfg.hamEOor s.operands.buf)), ?_, fun k b => ?_⟩
  · rw [hamCheck_eq_entries]
    exact pairwise_entries (fun _ _ => reportedIndices_hchk_pairwise _ _ _) fun _ _ _ _ hjk => hjk
  · rw [hamCheck_eq_entries, mem_entries, mem_reportedIndices_hchk]

end Sys2Proof.Machine
end

/-! ### The Hamming code as linear algebra over GF(2)

HENC, HSYN and HDEC are linear (41_hamming.md R90, R93, R96), so each is known from the unit words, and what a flip does from
the unit word it adds. -/

section
namespace Sys2Proof.Machine

/-! Flips are sums with unit words. -/

theorem flipAt_singleton {n : Nat} (v : BitVec n) (b : Nat) : flipAt v [b] = v ^^^ unitAt n b := rfl

/-- The flips of a list are one summand, whatever the word. -/
theorem flipAt_eq_xor {n : Nat} (v : BitVec n) (l : List Nat) : flipAt v l = v ^^^ flipAt 0#n l := by
  induction l generalizing v with
  | nil => simp
  | cons b l ih => rw [flipAt_cons, flipAt_cons, ih, ih (0#n ^^^ unitAt n b), BitVec.zero_xor, BitVec.xor_assoc]

/-- The same flips a second time restore the word. -/
theorem flipAt_flipAt_self {n : Nat} (v : BitVec n) (l : List Nat) : flipAt (flipAt v l) l = v := by
  rw [flipAt_eq_xor (flipAt v l), flipAt_eq_xor v, BitVec.xor_assoc, BitVec.xor_self, BitVec.xor_zero]

/-- An index outside the word flips nothing. -/
theorem unitAt_of_le {n b : Nat} (h : n ≤ b) : unitAt n b = 0#n :=
  eq_of_bitAt_eq fun i hi => by simp [beq_false_of_ne (Nat.lt_of_lt_of_le hi h).ne]

/-! HENC. -/

theorem placedData_xor (d d' : Byte) (b : Nat) : placedData (d ^^^ d') b = (placedData d b ^^ placedData d' b) := by
  unfold placedData
  split <;> simp

theorem parityBit_xor (d d' : Byte) (p : Nat) : parityBit (d ^^^ d') p = (parityBit d p ^^ parityBit d' p) := by
  simp only [parityBit, placedData_xor, xorAll_map_xor]

theorem henc_xor (d d' : Byte) : henc (d ^^^ d') = henc d ^^^ henc d' :=
  eq_of_bitAt_eq fun b hb => by
    rw [bitAt_xor, bitAt_henc _ b hb, bitAt_henc _ b hb, bitAt_henc _ b hb, placedData_xor, parityBit_xor]
    split <;> rfl

@[simp] theorem henc_zero : henc 0#8 = 0#12 := by decide

theorem senc_xor (H : Columns) (d d' : Byte) : senc H (d ^^^ d') = senc H d ^^^ senc H d' :=
  eq_of_bitAt_eq fun i hi => by
    simp only [bitAt_xor, bitAt_senc H _ i hi, Bool.and_xor_distrib_left, xorAll_map_xor]
    split <;> rfl

/-! HSYN. -/

/-- Bit k of the syndrome is the check of position 2^k (41_hamming.md R92). -/
theorem getLsbD_hsyn (c : BitVec 12) {k : Nat} (hk : k < 4) : (hsyn c).getLsbD k = hamCheckBit c (2 ^ k) := by
  have hpack : ∀ c1 c2 c4 c8 : Bool, ∀ k < 4,
      (BitVec.ofNat 4 (1 * c1.toNat + 2 * c2.toNat + 4 * c4.toNat + 8 * c8.toNat)).getLsbD k =
        [c1, c2, c4, c8].getD k false := by decide
  rw [hsyn, hpack _ _ _ _ k hk]
  obtain rfl | rfl | rfl | rfl : k = 0 ∨ k = 1 ∨ k = 2 ∨ k = 3 := by omega
  all_goals rfl

theorem hsyn_xor (c c' : BitVec 12) : hsyn (c ^^^ c') = hsyn c ^^^ hsyn c' :=
  BitVec.eq_of_getLsbD_eq fun k hk => by
    simp only [BitVec.getLsbD_xor, getLsbD_hsyn _ hk, hamCheckBit_xor]

@[simp] theorem hsyn_zero : hsyn 0#12 = 0#4 := by decide

/-- The unit word at index b has the syndrome b + 1, its position (41_hamming.md R93 (b)). -/
theorem hsyn_unitAt : ∀ b < 12, hsyn (unitAt 12 b) = BitVec.ofNat 4 (b + 1) := by decide

/-- A valid codeword has the syndrome 0 (41_hamming.md R93 (c)). -/
@[simp] theorem hsyn_henc (d : Byte) : hsyn (henc d) = 0#4 := by
  have hunit : ∀ j < 8, hsyn (henc (unitAt 8 j)) = 0#4 := by decide
  induction d using xor_induction with
  | zero => rw [henc_zero, hsyn_zero]
  | unit j hj => exact hunit j hj
  | xor d d' hd hd' => rw [henc_xor, hsyn_xor, hd, hd', BitVec.xor_self]

/-- Flips add the positions of the flipped bits to the syndrome (41_hamming.md R93 (d)). -/
theorem hsyn_flipAt (c : BitVec 12) {F : List Nat} (hF : ∀ b ∈ F, b < 12) :
    hsyn (flipAt c F) = F.foldl (fun e b => e ^^^ BitVec.ofNat 4 (b + 1)) (hsyn c) := by
  induction F generalizing c with
  | nil => rfl
  | cons b F ih =>
    rw [flipAt_cons, ih _ fun x hx => hF x (List.mem_cons_of_mem b hx), hsyn_xor, hsyn_unitAt b (hF b List.mem_cons_self)]
    rfl

/-! HDEC. -/

theorem hdec_xor (c c' : BitVec 12) : hdec (c ^^^ c') = hdec c ^^^ hdec c' :=
  eq_of_bitAt_eq fun i hi => by simp only [bitAt_xor, bitAt_hdec _ i hi]

/-- HDEC of the codeword of d is d (41_hamming.md R96). -/
@[simp] theorem hdec_henc (d : Byte) : hdec (henc d) = d := by
  have hunit : ∀ j < 8, hdec (henc (unitAt 8 j)) = unitAt 8 j := by decide
  induction d using xor_induction with
  | zero => decide
  | unit j hj => exact hunit j hj
  | xor d d' hd hd' => rw [henc_xor, hdec_xor, hd, hd']

theorem hdec_unitAt_parity : ∀ b ∈ parPos, hdec (unitAt 12 b) = 0#8 := by decide

theorem hdec_unitAt_data : ∀ i < 8, hdec (unitAt 12 (dataPos.getD i 0)) = unitAt 8 i := by decide

/-! HCHK. -/

theorem hchk_henc (oor : HamEOor) (d : Byte) : hchk oor (henc d) = .none := hloc_zero oor _ (by simp)

/-- One flip has its own position as the syndrome, so HCHK locates it (41_hamming.md R93 (d), R94). -/
theorem hchk_flipAt_henc (oor : HamEOor) (d : Byte) {b : Nat} (hb : b < 12) :
    hchk oor (flipAt (henc d) [b]) = .single b := by
  have hsyndrome : (hsyn (flipAt (henc d) [b])).toNat = b + 1 := by
    rw [flipAt_singleton, hsyn_xor, hsyn_henc, hsyn_unitAt b hb, BitVec.zero_xor, BitVec.toNat_ofNat]
    omega
  rw [hchk, hloc_inside oor _ (by omega) (by omega), hsyndrome]
  rfl

/-! Words of one syndrome. -/

/-- The word with its four parity bits equal to the bits of e. -/
def hamParityWord (e : BitVec 4) : BitVec 12 := flipAt 0#12 (([0, 1, 2, 3].filter e.getLsbD).map fun k => 2 ^ k - 1)

theorem hsyn_hamParityWord (e : BitVec 4) : hsyn (hamParityWord e) = e := by decide +revert

/-- The words of syndrome e below 4096, as numbers. -/
def wordsOfSyndrome (e : BitVec 4) : Finset Nat := (Finset.range 4096).filter fun c => hsyn (BitVec.ofNat 12 c) = e

/-- Adding a word of syndrome f takes the words of syndrome e into those of syndrome e + f. -/
theorem card_wordsOfSyndrome_le (e f : BitVec 4) : (wordsOfSyndrome e).card ≤ (wordsOfSyndrome (e ^^^ f)).card := by
  refine Finset.card_le_card_of_injOn (· ^^^ (hamParityWord f).toNat) (fun c hc => ?_) fun c _ c' _ h => ?_
  · obtain ⟨hlt, hsyn_c⟩ := Finset.mem_filter.mp hc
    have hword : BitVec.ofNat 12 (c ^^^ (hamParityWord f).toNat) = BitVec.ofNat 12 c ^^^ hamParityWord f := by
      rw [BitVec.ofNat_xor, BitVec.ofNat_toNat, BitVec.setWidth_eq]
    refine Finset.mem_filter.mpr ⟨?_, ?_⟩
    · exact Finset.mem_range.mpr (Nat.xor_lt_two_pow (n := 12) (Finset.mem_range.mp hlt) (hamParityWord f).isLt)
    · rw [hword, hsyn_xor, hsyn_c, hsyn_hamParityWord]
  · exact Nat.xor_left_injective h

/-- The 16 syndromes have equally many words. -/
theorem card_wordsOfSyndrome_eq (e : BitVec 4) : (wordsOfSyndrome e).card = (wordsOfSyndrome 0#4).card := by
  refine Nat.le_antisymm ?_ ?_
  · simpa using card_wordsOfSyndrome_le e e
  · simpa using card_wordsOfSyndrome_le 0#4 e

/-- Each syndrome belongs to 4096 / 16 words (41_hamming.md R93 (e)). -/
theorem card_wordsOfSyndrome (e : BitVec 4) : (wordsOfSyndrome e).card = 256 := by
  have hall : 4096 = ∑ f : BitVec 4, (wordsOfSyndrome f).card := by
    rw [← Finset.card_range 4096]
    exact Finset.card_eq_sum_card_fiberwise (f := fun c => hsyn (BitVec.ofNat 12 c)) fun _ _ => Finset.mem_univ _
  have hsum : ∑ f : BitVec 4, (wordsOfSyndrome f).card = 2 ^ 4 * (wordsOfSyndrome e).card := by
    rw [Finset.sum_congr rfl fun f _ => (card_wordsOfSyndrome_eq f).trans (card_wordsOfSyndrome_eq e).symm,
      Finset.sum_const, smul_eq_mul, Finset.card_univ, ← FinEnum.card_eq_fintypeCard, FinEnum.card_bitVec]
  omega

theorem length_filter_range_hsyn (e : BitVec 4) :
    ((List.range 4096).filter fun c => hsyn (BitVec.ofNat 12 c) = e).length = (wordsOfSyndrome e).card := by
  rw [← List.countP_eq_length_filter, wordsOfSyndrome, ← Nat.count_eq_card_filter_range]
  rfl

/-! Two and three flips. -/

/-- The syndrome of flips in a valid codeword: the exclusive or of their positions. -/
def positionSum (F : List Nat) : BitVec 4 := F.foldl (fun e b => e ^^^ BitVec.ofNat 4 (b + 1)) 0

theorem hsyn_flipAt_henc (d : Byte) {F : List Nat} (hF : ∀ b ∈ F, b < 12) :
    hsyn (flipAt (henc d) F) = positionSum F := by
  rw [hsyn_flipAt _ hF, hsyn_henc]
  rfl

/-- The 66 pairs of codeword indices. -/
def indexPairs : List (List Nat) := (List.range 12).flatMap fun b => (List.range b).map fun a => [a, b]

/-- The 220 triples of codeword indices. -/
def indexTriples : List (List Nat) := indexPairs.flatMap fun p => (List.range (p.headD 0)).map fun a => a :: p

theorem mem_indexPairs {F : List Nat} : F ∈ indexPairs ↔ ∃ b < 12, ∃ a < b, [a, b] = F := by simp [indexPairs]

theorem lt_of_mem_indexPairs {F : List Nat} (hF : F ∈ indexPairs) : ∀ b ∈ F, b < 12 := by
  obtain ⟨b, hb, a, hab, rfl⟩ := mem_indexPairs.mp hF
  simp [hb, hab.trans hb]

theorem lt_of_mem_indexTriples {F : List Nat} (hF : F ∈ indexTriples) : ∀ b ∈ F, b < 12 := by
  obtain ⟨p, hp, hFp⟩ := List.mem_flatMap.mp hF
  obtain ⟨c, hc, rfl⟩ := List.mem_map.mp hFp
  obtain ⟨b, hb, a, hab, rfl⟩ := mem_indexPairs.mp hp
  have hca : c < a := List.mem_range.mp hc
  simp [hb, hab.trans hb, hca.trans (hab.trans hb)]

/-- Counting flips of a valid codeword by their syndrome is counting them by the sum of their positions. -/
theorem length_filter_hsyn_flipAt_henc (d : Byte) {Fs : List (List Nat)} (hFs : ∀ F ∈ Fs, ∀ b ∈ F, b < 12)
    (p : BitVec 4 → Bool) :
    (Fs.filter fun F => p (hsyn (flipAt (henc d) F))).length = (Fs.filter fun F => p (positionSum F)).length := by
  rw [List.filter_congr fun F hF => by rw [hsyn_flipAt_henc d (hFs F hF)]]

/-- Two distinct positions sum neither to 0 nor to one of themselves. -/
theorem positionSum_pair : ∀ b < 12, ∀ a < b, positionSum [a, b] ≠ 0 ∧ positionSum [a, b] ≠ BitVec.ofNat 4 (a + 1) ∧
    positionSum [a, b] ≠ BitVec.ofNat 4 (b + 1) := by decide

/-- Settles O13: HSYN is linear, so words and flips of one syndrome are counted on unit words. -/
theorem hsynLaws : Obligations.HsynLaws := by
  refine ⟨hsyn_xor, hsyn_unitAt, hsyn_henc, fun d F hF => hsyn_flipAt_henc d hF, fun d b hb a hab => ?_, fun d => ?_,
    fun e => ?_⟩
  · rw [hsyn_flipAt_henc d (by simp [hb, hab.trans hb])]
    exact positionSum_pair b hb a hab
  · refine ⟨by decide, ?_, ?_, by decide +kernel, ?_⟩
    · exact (length_filter_hsyn_flipAt_henc d (fun _ => lt_of_mem_indexPairs) fun e => e.toNat ≤ 12).trans (by decide)
    · exact (length_filter_hsyn_flipAt_henc d (fun _ => lt_of_mem_indexPairs) fun e => 13 ≤ e.toNat).trans (by decide)
    · exact (length_filter_hsyn_flipAt_henc d (fun _ => lt_of_mem_indexTriples) fun e => e = 0).trans (by decide +kernel)
  · rw [length_filter_range_hsyn, card_wordsOfSyndrome]

/-- Settles O29: both encoders are linear, and the data byte can be read back from the codeword. -/
theorem encodersAreLinearAndInjective : Obligations.EncodersAreLinearAndInjective := by
  refine ⟨henc_xor, Function.LeftInverse.injective hdec_henc, henc_zero, fun H => ⟨senc_xor H, ?_, senc_zero H⟩⟩
  exact Function.LeftInverse.injective (sdec_senc H)

end Sys2Proof.Machine
end

/-! ### The Hamming operations on the ports

Stream index b of a codeword is wire 11 − b and of a byte wire 7 − b (30_encoding.md R64), so the equations of 41_hamming.md
R91, R92 and R96 are read off the wires. -/

section
namespace Sys2Proof.Machine

/-! Wires and stream bits. -/

/-- Stream bit i of the operand in the w low-order bits of a port is wire w − 1 − i. -/
theorem bitAt_setWidth {n w : Nat} (a : BitVec n) {i : Nat} (hi : i < w) :
    bitAt (a.setWidth w) i = a.getLsbD (w - 1 - i) := by
  have hwire : w - 1 - i < w := by omega
  simp [bitAt, BitVec.getMsbD, hi, hwire]

/-- Wire m of a vector result of width w is its stream bit w − 1 − m. -/
theorem vectorPorts_getLsbD {w : Nat} (v : BitVec w) (hw : w ≤ 16) {m : Nat} (hm : m < w) :
    (vectorPorts v).q.getLsbD m = bitAt v (w - 1 - m) := by
  have hstream : w - 1 - m < w := by omega
  have hback : w - 1 - (w - 1 - m) = m := by omega
  simp [vectorPorts, bitAt, BitVec.getMsbD, hm.trans_le hw, hstream, hback]

theorem bitAt_dataOperand (o : Operands) {i : Nat} (hi : i < 8) : bitAt (dataOperand o) i = o.a.getLsbD (7 - i) :=
  bitAt_setWidth o.a hi

theorem bitAt_hamOperand (o : Operands) {b : Nat} (hb : b < 12) : bitAt (hamOperand o) b = o.a.getLsbD (11 - b) :=
  bitAt_setWidth o.a hb

/-! HENC, HSYN and HDEC written out. -/

theorem bitAt_henc_data (d : Byte) {i : Nat} (hi : i < 8) : bitAt (henc d) (dataPos.getD i 0) = bitAt d i := by
  rw [← bitAt_hdec _ i hi, hdec_henc]

/-- The four checks as sums of codeword bits (41_hamming.md R92). -/
theorem hamCheckBit_eq (c : BitVec 12) :
    hamCheckBit c 1 = (bitAt c 0 ^^ bitAt c 2 ^^ bitAt c 4 ^^ bitAt c 6 ^^ bitAt c 8 ^^ bitAt c 10) ∧
    hamCheckBit c 2 = (bitAt c 1 ^^ bitAt c 2 ^^ bitAt c 5 ^^ bitAt c 6 ^^ bitAt c 9 ^^ bitAt c 10) ∧
    hamCheckBit c 4 = (bitAt c 3 ^^ bitAt c 4 ^^ bitAt c 5 ^^ bitAt c 6 ^^ bitAt c 11) ∧
    hamCheckBit c 8 = (bitAt c 7 ^^ bitAt c 8 ^^ bitAt c 9 ^^ bitAt c 10 ^^ bitAt c 11) := by
  simp [hamCheckBit, parityGroup_one, parityGroup_two, parityGroup_four, parityGroup_eight]

/-- Every check of a valid codeword is 0 (41_hamming.md R93 (c)). -/
theorem hamCheckBit_henc (d : Byte) {k : Nat} (hk : k < 4) : hamCheckBit (henc d) (2 ^ k) = false := by
  rw [← getLsbD_hsyn _ hk, hsyn_henc, BitVec.getLsbD_zero]

/-- The four parity bits of a codeword are the sums of the other bits of their groups (41_hamming.md R91). -/
theorem bitAt_henc_parity (d : Byte) :
    bitAt (henc d) 0 = (bitAt d 0 ^^ bitAt d 1 ^^ bitAt d 3 ^^ bitAt d 4 ^^ bitAt d 6) ∧
    bitAt (henc d) 1 = (bitAt d 0 ^^ bitAt d 2 ^^ bitAt d 3 ^^ bitAt d 5 ^^ bitAt d 6) ∧
    bitAt (henc d) 3 = (bitAt d 1 ^^ bitAt d 2 ^^ bitAt d 3 ^^ bitAt d 7) ∧
    bitAt (henc d) 7 = (bitAt d 4 ^^ bitAt d 5 ^^ bitAt d 6 ^^ bitAt d 7) := by
  have hdata : ∀ i < 8, bitAt d i = bitAt (henc d) (dataPos.getD i 0) := fun i hi => (bitAt_henc_data d hi).symm
  have hzero : ∀ k < 4, hamCheckBit (henc d) (2 ^ k) = false := fun _ => hamCheckBit_henc d
  obtain ⟨h1, h2, h4, h8⟩ := hamCheckBit_eq (henc d)
  simp (disch := decide) only [hdata, dataPos, List.getD_cons_zero, List.getD_cons_succ]
  refine ⟨?_, ?_, ?_, ?_⟩
  · simpa [Bool.xor_assoc] using h1.symm.trans (hzero 0 (by decide))
  · simpa [Bool.xor_assoc] using h2.symm.trans (hzero 1 (by decide))
  · simpa [Bool.xor_assoc] using h4.symm.trans (hzero 2 (by decide))
  · simpa [Bool.xor_assoc] using h8.symm.trans (hzero 3 (by decide))

/-- Settles O11: the data bits stand at their positions, and a parity bit makes its check 0. -/
theorem hencInsertsTheParityBits : Obligations.HencInsertsTheParityBits := by
  intro s
  have hwire : ∀ m < 12, (vectorPorts (henc (dataOperand s.operands))).q.getLsbD m =
      bitAt (henc (dataOperand s.operands)) (11 - m) := fun m hm => vectorPorts_getLsbD _ (by decide) hm
  have hdata : ∀ i < 8, (vectorPorts (henc (dataOperand s.operands))).q.getLsbD (11 - dataPos.getD i 0) =
      s.operands.a.getLsbD (7 - i) := fun i hi => by
    have hpos : ∀ i < 8, 11 - dataPos.getD i 0 < 12 ∧ 11 - (11 - dataPos.getD i 0) = dataPos.getD i 0 := by decide
    obtain ⟨hlt, hback⟩ := hpos i hi
    rw [hwire _ hlt, hback, bitAt_henc_data _ hi, bitAt_dataOperand _ hi]
  obtain ⟨h1, h2, h4, h8⟩ := bitAt_henc_parity (dataOperand s.operands)
  simp (disch := decide) only [bitAt_dataOperand] at h1 h2 h4 h8
  refine ⟨_, drives_drive s _, (hwire 11 (by decide)).trans h1, (hwire 10 (by decide)).trans h2, hdata 0 (by decide),
    (hwire 8 (by decide)).trans h4, hdata 1 (by decide), hdata 2 (by decide), hdata 3 (by decide),
    (hwire 4 (by decide)).trans h8, hdata 4 (by decide), hdata 5 (by decide), hdata 6 (by decide), hdata 7 (by decide),
    fun n => vectorPorts_getLsbD_of_le _⟩

/-- Settles O12: bit k of the syndrome is the check of position 2^k. -/
theorem hsynTakesTheFourChecks : Obligations.HsynTakesTheFourChecks := by
  intro s
  have hwire : ∀ k < 4, (vectorPorts (hsyn (hamOperand s.operands))).q.getLsbD k =
      hamCheckBit (hamOperand s.operands) (2 ^ k) := fun k hk => by
    rw [← getLsbD_hsyn _ hk]
    simp [vectorPorts, hk.trans (by decide : 4 < 16)]
  obtain ⟨h1, h2, h4, h8⟩ := hamCheckBit_eq (hamOperand s.operands)
  simp (disch := decide) only [bitAt_hamOperand] at h1 h2 h4 h8
  exact ⟨_, drives_drive s _, (hwire 0 (by decide)).trans h1, (hwire 1 (by decide)).trans h2,
    (hwire 2 (by decide)).trans h4, (hwire 3 (by decide)).trans h8, fun n => vectorPorts_getLsbD_of_le _⟩

/-- Settles O16: the wires of q are the data positions, and a flip adds the data bits of its unit word. -/
theorem hdecExtractsTheData : Obligations.HdecExtractsTheData := by
  refine ⟨fun s => ?_, hdec_henc, fun c b hb => ?_, fun c i hi => ?_⟩
  · have hwire : ∀ i < 8, (vectorPorts (hdec (hamOperand s.operands))).q.getLsbD (7 - i) =
        s.operands.a.getLsbD (11 - dataPos.getD i 0) := fun i hi => by
      have hpos : ∀ i < 8, dataPos.getD i 0 < 12 ∧ 7 - i < 8 ∧ 7 - (7 - i) = i := by decide
      obtain ⟨hdata, hlt, hback⟩ := hpos i hi
      rw [vectorPorts_getLsbD _ (by decide) hlt, hback, bitAt_hdec _ i hi, bitAt_hamOperand _ hdata]
    exact ⟨_, drives_drive s _, hwire 0 (by decide), hwire 1 (by decide), hwire 2 (by decide), hwire 3 (by decide),
      hwire 4 (by decide), hwire 5 (by decide), hwire 6 (by decide), hwire 7 (by decide),
      fun n => vectorPorts_getLsbD_of_le _⟩
  · rw [flipAt_singleton, hdec_xor, hdec_unitAt_parity b hb, BitVec.xor_zero]
  · rw [flipAt_singleton, flipAt_singleton, hdec_xor]
    exact congrArg (hdec c ^^^ ·) (hdec_unitAt_data i hi)

/-! HLOC and HCHK. -/

theorem drives_exec_hloc {s : State} {v : Verdict} (h : hloc s.cfg.hamEOor (hamSynOperand s.operands) = v) :
    drives (exec .hloc s) s (verdictPorts v) := h ▸ drives_drive s _

theorem drives_exec_hchk {s : State} {v : Verdict} (h : hchk s.cfg.hamEOor (hamOperand s.operands) = v) :
    drives (exec .hchk s) s (verdictPorts v) := h ▸ drives_drive s _

/-- Settles O14: the three ranges of the syndrome. -/
theorem hlocLocatesThePosition : Obligations.HlocLocatesThePosition := by
  rintro s _ rfl
  refine ⟨fun h0 => ?_, fun h1 h12 => ?_, fun h13 hoor => ?_, fun h13 hoor => ?_⟩
  · exact drives_exec_hloc (hloc_zero _ _ h0)
  · exact drives_exec_hloc (hloc_inside _ _ h1 h12)
  · exact drives_exec_hloc (hoor ▸ hloc_report _ h13)
  · exact drives_exec_hloc (hoor ▸ hloc_drop _ h13)

/-- A vector result put back on port `a` is read as the same vector. -/
theorem vectorPorts_setWidth {w : Nat} (v : BitVec w) (hw : w ≤ 16) : (vectorPorts v).q.setWidth w = v := by
  simp [vectorPorts, hw]

/-- Settles O15: HLOC reads from port `a` the syndrome that HSYN put on q. -/
theorem hchkIsHlocAfterHsyn : Obligations.HchkIsHlocAfterHsyn := fun s =>
  ⟨_, _, drives_drive s _, drives_exec_hloc (congrArg (hloc s.cfg.hamEOor) (vectorPorts_setWidth _ (by decide))),
    drives_exec_hchk rfl⟩

/-- Settles O17: a codeword has the syndrome 0, and with bit b flipped the syndrome b + 1. -/
theorem hchkLocatesASingleFlip : Obligations.HchkLocatesASingleFlip := by
  refine fun s d => ⟨fun ha => ?_, fun b hb ha => ?_⟩
  · exact drives_exec_hchk (ha ▸ hchk_henc _ d)
  · exact drives_exec_hchk (ha ▸ hchk_flipAt_henc _ d hb)

end Sys2Proof.Machine
end

/-! ### Encoded buffers

The transmitted buffer of a data buffer has the codewords of its bytes, one after another, and zero pad bits (20_memory.md R43,
R45; 41_hamming.md R98, 42_secded.md R124). -/

section
namespace Sys2Proof.Machine

/-! The codewords of a buffer. -/

@[simp] theorem codewords_length (W : Nat) (buf : Buffer) : (codewords W buf).length = 8 * buf.length / W := by
  simp [codewords]

theorem codewords_eq_of_codewordAt_eq {W : Nat} {x y : Buffer} (hcount : 8 * x.length / W = 8 * y.length / W)
    (h : ∀ k < 8 * x.length / W, codewordAt W x k = codewordAt W y k) : codewords W x = codewords W y := by
  rw [codewords, codewords, ← hcount]
  exact List.map_congr_left fun k hk => h k (List.mem_range.mp hk)

theorem getD_map_codewords {W : Nat} {α : Type} (f : BitVec W → α) (buf : Buffer) (a : α) {k : Nat}
    (hk : k < 8 * buf.length / W) : ((codewords W buf).map f).getD k a = f (codewordAt W buf k) := by
  simp [codewords, hk]

/-- A byte is a codeword of width 8. -/
theorem codewordAt_eight (data : Buffer) (k : Nat) : codewordAt 8 data k = data.getD k 0 :=
  eq_of_bitAt_eq fun b hb => by
    have hbyte : (k * 8 + b) / 8 = k := by omega
    have hbit : (k * 8 + b) % 8 = b := by omega
    rw [codewordAt, bitAt_ofBits, streamBit, hbyte, hbit]
    simp [hb, bitAt, BitVec.getMsbD]

theorem codewords_eight (data : Buffer) : codewords 8 data = data := by
  refine List.ext_getElem (by simp) fun k hk hk' => ?_
  simp only [codewords, List.getElem_map, List.getElem_range, codewordAt_eight, List.getD_eq_getElem _ _ hk']

/-- The codewords of a packed list of codewords are that list (40_bitstream_adapter.md R83). -/
theorem codewords_pack {W : Nat} (hW : 8 ≤ W) (cs : List (BitVec W)) : codewords W (pack (cs.map seqOf)) = cs := by
  have hlengths : ∀ g ∈ cs.map seqOf, g.length = W := by simp
  have hcut := map_b2g_eq_map_codewords W (pack (cs.map seqOf)) id
  rw [b2g_pack hW hlengths, List.map_id, List.map_map] at hcut
  rw [← hcut]
  simp [Function.comp_def]

/-! encode and encode2Bit. -/

theorem hamEncode_eq (data : Buffer) : hamEncode data = pack ((data.map henc).map seqOf) := by
  rw [hamEncode, map_b2g_eq_map_codewords 8 data fun d => seqOf (henc d), codewords_eight, List.map_map]
  rfl

theorem secEncode_eq (H : Columns) (data : Buffer) : secEncode H data = pack ((data.map (senc H)).map seqOf) := by
  rw [secEncode, map_b2g_eq_map_codewords 8 data fun d => seqOf (senc H d), codewords_eight, List.map_map]
  rfl

@[simp] theorem codewords_hamEncode (data : Buffer) : codewords 12 (hamEncode data) = data.map henc := by
  rw [hamEncode_eq, codewords_pack (by decide)]

@[simp] theorem codewords_secEncode (H : Columns) (data : Buffer) :
    codewords 16 (secEncode H data) = data.map (senc H) := by
  rw [secEncode_eq, codewords_pack (by decide)]

theorem hamEncode_length (data : Buffer) : (hamEncode data).length = (12 * data.length + 7) / 8 := by
  rw [hamEncode_eq, pack_codewords_length, List.length_map, Nat.mul_comm]

/-- The pad bits make no further codeword (20_memory.md R46). -/
theorem hamEncode_count (data : Buffer) : 8 * (hamEncode data).length / 12 = data.length := by
  rw [← codewords_length, codewords_hamEncode, List.length_map]

theorem codewordAt_hamEncode (data : Buffer) {k : Nat} (hk : k < data.length) :
    codewordAt 12 (hamEncode data) k = henc (data.getD k 0) := by
  rw [hamEncode_eq, codewordAt_pack, List.getD_eq_getElem _ _ hk, List.getD_eq_getElem _ _ (by simpa using hk),
    List.getElem_map]

/-- Settles O39: encode packs the codewords of the data bytes. -/
theorem encodeLaysOutTheCodewords : Obligations.EncodeLaysOutTheCodewords := by
  refine fun s => ⟨_, givesBack_giveBack s _, hamEncode_length _, fun k => codewordAt_hamEncode _, fun n hn => ?_⟩
  have hbits : (((s.operands.buf.map henc).map seqOf).flatten).length = s.operands.buf.length * 12 := by
    rw [flatten_length_of_length (W := 12) _ (by simp), List.length_map, List.length_map]
  rw [hamEncode_eq, streamBit_pack, List.getD_eq_default _ _ (by omega)]

/-! decode and decode2Bit. -/

theorem getD_hamDecode (buf : Buffer) {k : Nat} (hk : k < 8 * buf.length / 12) :
    (hamDecode buf).getD k 0 = hdec (codewordAt 12 buf k) := by
  rw [hamDecode_eq, getD_map_codewords hdec buf 0 hk]

theorem hamDecode_length (buf : Buffer) : (hamDecode buf).length = 8 * buf.length / 12 := by
  rw [hamDecode_eq, List.length_map, codewords_length]

/-- Settles O41: decode maps HDEC over the codewords. -/
theorem decodeExtractsEveryCodeword : Obligations.DecodeExtractsEveryCodeword := fun s =>
  ⟨_, givesBack_giveBack s _, hamDecode_length _, fun _ hk => getD_hamDecode _ (hamDecode_length _ ▸ hk)⟩

/-- A buffer with the codewords of the data decodes to the data, whatever its pad bits. -/
theorem hamDecode_of_codewords_eq {buf data : Buffer} (h : codewords 12 buf = data.map henc) : hamDecode buf = data := by
  rw [hamDecode_eq, h, List.map_map]
  simp [Function.comp_def]

theorem hamDecode_hamEncode (data : Buffer) : hamDecode (hamEncode data) = data :=
  hamDecode_of_codewords_eq (codewords_hamEncode data)

theorem secDecode_secEncode (H : Columns) (data : Buffer) : secDecode (secEncode H data) = data := by
  rw [secDecode_eq, codewords_secEncode, List.map_map]
  simp [Function.comp_def]

/-! Transactions. -/

theorem transact_eq_exec (s : State) (i : Instr) (o : Operands) :
    transact s i o = exec i (s.present (encode i) o) := step_present_encode s i o

/-- Settles O47: decoding inverts encoding codeword by codeword, and neither reads the rest of the state. -/
theorem decodeRecoversWhatEncodeSent : Obligations.DecodeRecoversWhatEncodeSent := by
  intro ed hed s s' o o' data
  simp only [List.mem_cons, List.not_mem_nil, or_false] at hed
  obtain rfl | rfl := hed
  · exact ⟨_, _, _, transact_eq_exec _ _ _, rfl, transact_eq_exec _ _ _,
      congrArg (some ∘ Returned.bytes) (hamDecode_hamEncode data)⟩
  · exact ⟨_, _, _, transact_eq_exec _ _ _, rfl, transact_eq_exec _ _ _,
      congrArg (some ∘ Returned.bytes) (secDecode_secEncode s.cfg.H.cols data)⟩

end Sys2Proof.Machine
end

/-! ### Reception with the Hamming code

fixErrors flips in each codeword the bits its report names, so reception undoes a single flip and leaves alone a codeword whose
syndrome is no position (41_hamming.md R94, R104; 30_encoding.md R72). -/

section
namespace Sys2Proof.Machine

/-! The patcher on codewords. -/

/-- For a codeword k inside the buffer, the pair that addresses its bit b is (k, b) alone (43_patcher.md R135, R136). -/
theorem addresses_iff {L W k b : Nat} (hk : k < 8 * L / W) (hb : b < W) (kb : ErrorPair) :
    (inRange L W kb.1 kb.2 = true ∧ absBit W kb.1 kb.2 = k * W + b) ↔ kb.1 = k ∧ kb.2 = b := by
  obtain ⟨j, c⟩ := kb
  have hend : k * W + W ≤ 8 * L := mul_lt_of_lt_div hk
  simp only [inRange, absBit, Bool.and_eq_true, decide_eq_true_eq]
  constructor
  · rintro ⟨⟨hc, -⟩, heq⟩
    have hdiv : ∀ m r, r < W → (m * W + r) / W = m := fun m r hr => by
      rw [Nat.mul_comm, Nat.mul_add_div (by omega), Nat.div_eq_of_lt hr, Nat.add_zero]
    have hjk : j = k := by rw [← hdiv j c hc, heq, hdiv k b hb]
    subst hjk
    exact ⟨rfl, by omega⟩
  · rintro ⟨rfl, rfl⟩
    have hbyte : (j * W + c) / 8 < L := by omega
    exact ⟨⟨hb, decide_eq_true hbyte⟩, rfl⟩

/-- A pair flips its bit in its own codeword and keeps the others; a bit index outside the codeword flips nothing
(43_patcher.md R137). -/
theorem codewordAt_patch {W : Nat} (buf : Buffer) (kb : ErrorPair) {k : Nat} (hk : k < 8 * buf.length / W) :
    codewordAt W (patch buf W kb) k =
      if kb.1 = k then codewordAt W buf k ^^^ unitAt W kb.2 else codewordAt W buf k := by
  refine eq_of_bitAt_eq fun b hb => ?_
  have haddress : (inRange buf.length W kb.1 kb.2 && decide (absBit W kb.1 kb.2 = k * W + b)) =
      decide (kb.1 = k ∧ kb.2 = b) := by
    rw [Bool.eq_iff_iff, Bool.and_eq_true, decide_eq_true_eq, decide_eq_true_eq, addresses_iff hk hb]
  have hword (x : Buffer) : bitAt (codewordAt W x k) b = streamBit x (k * W + b) := by simp [codewordAt, hb]
  rw [hword, streamBit_patch, haddress]
  split
  case isTrue h => rw [bitAt_xor, bitAt_unitAt, hword]; simp [h, hb, beq_eq_decide, eq_comm]
  case isFalse h => rw [hword]; simp [h]

/-- A fix list flips in each codeword the bits of its own entries (43_patcher.md R138). -/
theorem codewordAt_applyFixes {W : Nat} (buf : Buffer) (l : List ErrorPair) {k : Nat} (hk : k < 8 * buf.length / W) :
    codewordAt W (applyFixes W buf l) k =
      flipAt (codewordAt W buf k) ((l.filter fun x => x.1 == k).map Prod.snd) := by
  induction l generalizing buf with
  | nil => rfl
  | cons kb l ih =>
    rw [applyFixes_cons, ih _ (by rwa [patch_length]), codewordAt_patch buf kb hk, List.filter_cons]
    by_cases h : kb.1 = k
    · simp [h]
    · simp [h]

theorem codewordAt_applyFixes_entries {W : Nat} (buf : Buffer) (located : Nat → List Nat) {k : Nat}
    (hk : k < 8 * buf.length / W) :
    codewordAt W (applyFixes W buf (entries (8 * buf.length / W) located)) k =
      flipAt (codewordAt W buf k) (located k) := by
  rw [codewordAt_applyFixes buf _ hk, filter_entries, if_pos hk, List.map_map]
  simp [Function.comp_def]

/-! What recv does to each codeword. -/

/-- fixErrors after check (30_encoding.md R72). -/
def hamFixed (oor : HamEOor) (t : Buffer) : Buffer := applyFixes 12 t (hamCheck oor t)

@[simp] theorem hamFixed_length (oor : HamEOor) (t : Buffer) : (hamFixed oor t).length = t.length :=
  applyFixes_length 12 t _

/-- The three transactions of recv complete, each with the result of the one before (30_encoding.md R72). -/
theorem recv_eq (s : State) (o : Operands) (t : Buffer) :
    recv s o t = some (hamCheck s.cfg.hamEOor t, hamFixed s.cfg.hamEOor t, hamDecode (hamFixed s.cfg.hamEOor t)) := rfl

theorem codewordAt_hamFixed (oor : HamEOor) (t : Buffer) {k : Nat} (hk : k < 8 * t.length / 12) :
    codewordAt 12 (hamFixed oor t) k =
      flipAt (codewordAt 12 t k) (reportedIndices (hchk oor (codewordAt 12 t k))) := by
  rw [hamFixed, hamCheck_eq_entries, codewordAt_applyFixes_entries t _ hk]

/-- For a syndrome of 13 or more, what is reported is no index of the codeword (41_hamming.md R94). -/
theorem flipAt_reportedIndices_of_syndrome_ge (oor : HamEOor) {c : BitVec 12} (h : 13 ≤ (hsyn c).toNat) :
    flipAt c (reportedIndices (hchk oor c)) = c := by
  cases oor with
  | report =>
    rw [hchk, hloc_report _ h, reportedIndices, flipAt_singleton, unitAt_of_le (by omega), BitVec.xor_zero]
  | drop =>
    rw [hchk, hloc_drop _ h, reportedIndices, flipAt_nil]

/-- Settles O52: such a codeword is kept by fixErrors, and decode reads it as received. -/
theorem recvLeavesSyndromesAbove12Alone : Obligations.RecvLeavesSyndromesAbove12Alone := by
  refine fun s o t => ⟨_, _, _, recv_eq s o t, hamFixed_length _ t, fun k hk hsyndrome => ?_⟩
  have hkept : codewordAt 12 (hamFixed s.cfg.hamEOor t) k = codewordAt 12 t k := by
    rw [codewordAt_hamFixed _ t hk, flipAt_reportedIndices_of_syndrome_ge _ hsyndrome]
  exact ⟨hkept, by rw [getD_hamDecode _ (by rwa [hamFixed_length]), hkept]⟩

/-- At most one flip in a valid codeword is reported exactly (41_hamming.md R104 (b)). -/
theorem reportedIndices_hchk_flipAt_henc (oor : HamEOor) (d : Byte) {F : List Nat} (hlength : F.length ≤ 1)
    (hF : ∀ b ∈ F, b < 12) : reportedIndices (hchk oor (flipAt (henc d) F)) = F := by
  match F, hlength with
  | [], _ => rw [flipAt_nil, hchk_henc, reportedIndices]
  | [b], _ => rw [hchk_flipAt_henc oor d (hF b List.mem_cons_self), reportedIndices]

/-- Settles O48: check reports the flips of each codeword, the same flips a second time restore it, and decode reads the
codewords alone. -/
theorem hammingReceptionCorrectsOneFlipPerCodeword : Obligations.HammingReceptionCorrectsOneFlipPerCodeword := by
  intro s s' o o' data
  refine ⟨_, hamEncode data, transact_eq_exec _ _ _, rfl, fun t' F hlength hflips => ?_⟩
  have hcount : 8 * t'.length / 12 = data.length := by rw [hlength, hamEncode_count]
  have hlocated : ∀ k < data.length, reportedIndices (hchk s'.cfg.hamEOor (codewordAt 12 t' k)) = F k := by
    intro k hk
    obtain ⟨hone, hinside, hword⟩ := hflips k hk
    rw [hword, codewordAt_hamEncode data hk, reportedIndices_hchk_flipAt_henc _ _ hone hinside]
  have hreport : hamCheck s'.cfg.hamEOor t' = entries data.length F := by
    rw [hamCheck_eq_entries, hcount, entries_congr hlocated]
  have hrestored : ∀ k < data.length,
      codewordAt 12 (hamFixed s'.cfg.hamEOor t') k = codewordAt 12 (hamEncode data) k := by
    intro k hk
    obtain ⟨-, -, hword⟩ := hflips k hk
    rw [codewordAt_hamFixed _ t' (hcount ▸ hk), hlocated k hk, hword, flipAt_flipAt_self]
  have hcodewords : codewords 12 (hamFixed s'.cfg.hamEOor t') = data.map henc := by
    rw [← codewords_hamEncode]
    exact codewords_eq_of_codewordAt_eq (by rw [hamFixed_length, hlength]) fun k hk =>
      hrestored k (by rwa [hamFixed_length, hcount] at hk)
  refine ⟨hamFixed s'.cfg.hamEOor t', ?_, hrestored⟩
  rw [recv_eq, hreport, hamDecode_of_codewords_eq hcodewords]
  rfl

end Sys2Proof.Machine
end

/-! ### The SECDED operations on the ports

SENC and SSYN add up columns of H, SLOC1 and SLOC2 look for the first column or pair with a given sum, and SCHK tries the four
answers in order (42_secded.md R110 to R120), so under V1 and V2 SCHK is known for every codeword with at most two flips
(R122). -/

section
namespace Sys2Proof.Machine

/-! Sums of columns. -/

/-- The exclusive or of the columns of H at the indices below n where the word v has a 1 (42_secded.md R110, R112). -/
def columnSum (H : Columns) (n : Nat) {w : Nat} (v : BitVec w) : Byte :=
  (List.range n).foldl (fun y j => if bitAt v j then y ^^^ col H j else y) 0#8

/-- Row r of a sum of columns is the sum of the entries of row r. -/
theorem bitAt_foldl_columns (H : Columns) (p : Nat → Bool) (l : List Nat) (y : Byte) (r : Nat) :
    bitAt (l.foldl (fun y j => if p j then y ^^^ col H j else y) y) r =
      (bitAt y r ^^ xorAll (l.map fun j => entry H r j && p j)) := by
  induction l generalizing y with
  | nil => simp
  | cons j l ih =>
    rw [List.foldl_cons, ih, List.map_cons, xorAll_cons]
    cases p j <;> simp [entry]

theorem bitAt_columnSum (H : Columns) (n : Nat) {w : Nat} (v : BitVec w) (r : Nat) :
    bitAt (columnSum H n v) r = xorAll ((List.range n).map fun j => entry H r j && bitAt v j) := by
  rw [columnSum, bitAt_foldl_columns, bitAt_zero, Bool.false_xor]

theorem ssyn_eq_columnSum (H : Columns) (c : BitVec 16) : ssyn H c = columnSum H 16 c :=
  eq_of_bitAt_eq fun r hr => by rw [bitAt_ssyn H c r hr, bitAt_columnSum]

/-- Of two bytes written one after the other, the first has the stream bits 0 to 7. -/
theorem bitAt_append (x y : Byte) (i : Nat) :
    bitAt (x ++ y : BitVec 16) i = if i < 8 then bitAt x i else bitAt y (i - 8) := by
  simp only [bitAt, BitVec.getMsbD_append, ← Nat.not_lt, ite_not]

theorem senc_eq_append (H : Columns) (d : Byte) : senc H d = d ++ columnSum H 8 d :=
  eq_of_bitAt_eq fun i hi => by rw [bitAt_senc H d i hi, bitAt_append, bitAt_columnSum]

theorem sdec_append (x y : Byte) : sdec (x ++ y) = x :=
  eq_of_bitAt_eq fun j hj => by rw [bitAt_sdec _ j hj, bitAt_append, if_pos hj]

theorem sdec_eq_extractLsb (c : BitVec 16) : sdec c = c.extractLsb' 8 8 :=
  eq_of_bitAt_eq fun j hj => by
    rw [bitAt_sdec c j hj]
    have h : 8 - 1 - j < 8 := by omega
    have h' : 8 + (8 - 1 - j) = 15 - j := by omega
    simp [bitAt, BitVec.getMsbD, hj, h, h', hj.trans (by decide : 8 < 16)]

/-! Flips of a codeword. -/

/-- Flips add their columns to the syndrome (42_secded.md R113 (c)). -/
theorem ssyn_flipAt (H : Columns) (c : BitVec 16) {F : List Nat} (hF : ∀ j ∈ F, j < 16) :
    ssyn H (flipAt c F) = F.foldl (fun y j => y ^^^ col H j) (ssyn H c) := by
  induction F generalizing c with
  | nil => rfl
  | cons j F ih =>
    obtain ⟨hj, hF⟩ := List.forall_mem_cons.mp hF
    rw [flipAt_cons, ih _ hF, ssyn_xor, ssyn_unitAt H hj, List.foldl_cons]

theorem ssyn_flipAt_senc {H : Columns} (hV2 : V2 H) (d : Byte) {F : List Nat} (hF : ∀ j ∈ F, j < 16) :
    ssyn H (flipAt (senc H d) F) = F.foldl (fun y j => y ^^^ col H j) 0#8 := by
  rw [ssyn_flipAt H _ hF, (v2_iff H).mp hV2]

theorem ssyn_flipAt_single {H : Columns} (hV2 : V2 H) (d : Byte) {a : Nat} (ha : a < 16) :
    ssyn H (flipAt (senc H d) [a]) = col H a := by
  rw [ssyn_flipAt_senc hV2 d (by simpa using ha), List.foldl_cons, List.foldl_nil, BitVec.zero_xor]

theorem ssyn_flipAt_pair {H : Columns} (hV2 : V2 H) (d : Byte) {a b : Nat} (hab : a < b) (hb : b < 16) :
    ssyn H (flipAt (senc H d) [a, b]) = col H a ^^^ col H b := by
  rw [ssyn_flipAt_senc hV2 d (by simp [hb, hab.trans hb]), List.foldl_cons, List.foldl_cons, List.foldl_nil,
    BitVec.zero_xor]

/-- A flip at a parity index leaves the data byte (42_secded.md R120). -/
theorem sdec_flipAt_parity (c : BitVec 16) {b : Nat} (hb : b < 16) (h8 : 8 ≤ b) : sdec (flipAt c [b]) = sdec c := by
  obtain ⟨r, rfl⟩ := Nat.exists_eq_add_of_le h8
  rw [flipAt_singleton, sdec_xor, ← parityWord_unitAt (by omega), sdec_parityWord, BitVec.xor_zero]

/-! What V1 says of columns and of sums of two (10_state.md R24). -/

theorem col_inj {H : Columns} (hV1 : V1 H) {j k : Nat} (hj : j < 16) (hk : k < 16) (h : col H j = col H k) : j = k := by
  obtain hlt | heq | hlt := Nat.lt_trichotomy j k
  · exact absurd h (hV1.2 k hk j hlt)
  · exact heq
  · exact absurd h.symm (hV1.2 j hj k hlt)

theorem col_xor_col_ne_zero {H : Columns} (hV1 : V1 H) {j k : Nat} (hjk : j < k) (hk : k < 16) :
    col H j ^^^ col H k ≠ 0#8 :=
  fun h => hV1.2 k hk j hjk (BitVec.xor_eq_zero_iff.mp h)

/-- A sum of two columns is neither of the two, since the other is not 0. -/
theorem ne_of_col_eq_xor {H : Columns} (hV1 : V1 H) {a b m : Nat} (ha : a < 16) (hb : b < 16)
    (h : col H m = col H a ^^^ col H b) : m ≠ a ∧ m ≠ b := by
  constructor
  · rintro rfl
    exact hV1.1 b hb ((BitVec.xor_right_inj (col H m)).mp (h.symm.trans BitVec.xor_zero.symm))
  · rintro rfl
    exact hV1.1 a ha ((BitVec.xor_left_inj (col H m)).mp (h.symm.trans BitVec.zero_xor.symm))

/-- Two pairs of one sum that have an index in common are the same pair. -/
theorem pair_eq_or_disjoint {H : Columns} (hV1 : V1 H) {a b j k : Nat} (hab : a < b) (hb : b < 16) (hjk : j < k)
    (hk : k < 16) (h : col H j ^^^ col H k = col H a ^^^ col H b) :
    (j = a ∧ k = b) ∨ (j ≠ a ∧ j ≠ b ∧ k ≠ a ∧ k ≠ b) := by
  have ha : a < 16 := hab.trans hb
  have hj : j < 16 := hjk.trans hk
  by_cases hja : j = a
  · subst hja
    exact .inl ⟨rfl, col_inj hV1 hk hb ((BitVec.xor_right_inj _).mp h)⟩
  by_cases hkb : k = b
  · subst hkb
    exact .inl ⟨col_inj hV1 hj ha ((BitVec.xor_left_inj _).mp h), rfl⟩
  refine .inr ⟨hja, ?_, ?_, hkb⟩
  · rintro rfl
    have hka : k = a := col_inj hV1 hk ha ((BitVec.xor_right_inj (col H j)).mp (h.trans (BitVec.xor_comm _ _)))
    omega
  · rintro rfl
    have hjb : j = b := col_inj hV1 hj hb ((BitVec.xor_left_inj (col H k)).mp (h.trans (BitVec.xor_comm _ _)))
    omega

/-! SLOC1 and SLOC2. -/

theorem sloc1_col {H : Columns} (hV1 : V1 H) {j : Nat} (hj : j < 16) : sloc1 H (col H j) = some j := by
  cases h : sloc1 H (col H j) with
  | none => exact absurd rfl (sloc1_none.mp h j hj)
  | some i =>
    obtain ⟨hi, hcol⟩ := sloc1_some h
    rw [col_inj hV1 hi hj hcol]

theorem sloc1_zero {H : Columns} (hV1 : V1 H) : sloc1 H 0#8 = none := sloc1_none.mpr hV1.1

theorem sloc2_zero {H : Columns} (hV1 : V1 H) : sloc2 H 0#8 = none :=
  sloc2_none.mpr fun _ hk _ hjk => col_xor_col_ne_zero hV1 hjk hk

/-- The order in which SLOC2 visits the pairs (42_secded.md R116). -/
theorem ascending_columnPairs : ascending columnPairs := by
  refine List.pairwise_flatMap.mpr ⟨fun j _ => ?_, ?_⟩
  · exact List.pairwise_map.mpr ((List.pairwise_lt_range' 1).imp fun h => .inr ⟨rfl, h⟩)
  · refine List.pairwise_lt_range.imp fun {i j} hij p hp q hq => .inl ?_
    obtain ⟨_, -, rfl⟩ := List.mem_map.mp hp
    obtain ⟨_, -, rfl⟩ := List.mem_map.mp hq
    exact hij

/-- In a list along which R holds, a search answers the first entry of those that pass. -/
theorem eq_or_rel_of_find?_eq_some {α : Type} {R : α → α → Prop} {p : α → Bool} {l : List α} {a b : α}
    (hl : l.Pairwise R) (h : l.find? p = some a) (hb : b ∈ l) (hpb : p b = true) : b = a ∨ R a b := by
  obtain ⟨-, before, after, rfl, hbefore⟩ := List.find?_eq_some_iff_append.mp h
  obtain hb | hb := List.mem_append.mp hb
  · exact absurd hpb (by simpa using hbefore b hb)
  · obtain rfl | hb := List.mem_cons.mp hb
    · exact .inl rfl
    · obtain ⟨-, hfrom, -⟩ := List.pairwise_append.mp hl
      exact .inr (List.rel_of_pairwise_cons hfrom hb)

/-- No pair before (j, k) in the order of SLOC2 has the sum y (42_secded.md R116). -/
def NoEarlierPair (H : Columns) (y : Byte) (j k : Nat) : Prop :=
  ∀ k' < 16, ∀ j' < k', (j' < j ∨ j' = j ∧ k' < k) → col H j' ^^^ col H k' ≠ y

/-- Any pair with the sum y is the one SLOC2 answers, or a later one. -/
theorem eq_or_later_of_sloc2 {H : Columns} {y : Byte} {j k i l : Nat} (h : sloc2 H y = some (j, k)) (hil : i < l)
    (hl : l < 16) (hsum : col H i ^^^ col H l = y) : (i, l) = (j, k) ∨ (j < i ∨ j = i ∧ k < l) :=
  eq_or_rel_of_find?_eq_some ascending_columnPairs h ((mem_columnPairs i l).mpr ⟨hil, hl⟩) (beq_iff_eq.mpr hsum)

theorem noEarlierPair_of_sloc2 {H : Columns} {y : Byte} {j k : Nat} (h : sloc2 H y = some (j, k)) :
    NoEarlierPair H y j k := by
  intro l hl i hil hearlier hsum
  obtain heq | hlater := eq_or_later_of_sloc2 h hil hl hsum
  · cases heq; omega
  · omega

theorem exists_sloc2 {H : Columns} {y : Byte} {j k : Nat} (hjk : j < k) (hk : k < 16)
    (hsum : col H j ^^^ col H k = y) : ∃ i l, sloc2 H y = some (i, l) := by
  cases h : sloc2 H y with
  | none => exact absurd hsum (sloc2_none.mp h k hk j hjk)
  | some p => exact ⟨p.1, p.2, rfl⟩

theorem sloc2_of_noEarlierPair {H : Columns} {y : Byte} {j k : Nat} (hjk : j < k) (hk : k < 16)
    (hsum : col H j ^^^ col H k = y) (hleast : NoEarlierPair H y j k) : sloc2 H y = some (j, k) := by
  obtain ⟨i, l, h⟩ := exists_sloc2 hjk hk hsum
  obtain ⟨hil, hl, hsum'⟩ := sloc2_some h
  obtain heq | hlater := eq_or_later_of_sloc2 h hjk hk hsum
  · rw [h, heq]
  · exact absurd hsum' (hleast l hl i hil hlater)

/-- Under V4 a sum of two columns is the sum of no other pair (10_state.md R28). -/
theorem sloc2_of_v4 {H : Columns} (hV4 : V4 H) {y : Byte} {j k : Nat} (hjk : j < k) (hk : k < 16)
    (hsum : col H j ^^^ col H k = y) : sloc2 H y = some (j, k) := by
  obtain ⟨i, l, h⟩ := exists_sloc2 hjk hk hsum
  obtain ⟨hil, hl, hsum'⟩ := sloc2_some h
  have hpair : (i, l) = (j, k) := by
    by_contra hne
    exact hV4 _ ((mem_columnPairs i l).mpr ⟨hil, hl⟩) _ ((mem_columnPairs j k).mpr ⟨hjk, hk⟩) hne (hsum'.trans hsum.symm)
  rw [h, hpair]

/-! SCHK. -/

theorem schk_of_zero {H : Columns} {c : BitVec 16} (h : ssyn H c = 0#8) : schk H c = .none := if_pos h

theorem schk_of_column {H : Columns} (hV1 : V1 H) {c : BitVec 16} {j : Nat} (hj : j < 16) (h : ssyn H c = col H j) :
    schk H c = .single j := by
  have hne : ssyn H c ≠ 0#8 := h ▸ hV1.1 j hj
  rw [schk, if_neg hne, h, sloc1_col hV1 hj]

theorem schk_of_pair {H : Columns} {c : BitVec 16} (hne : ssyn H c ≠ 0#8) (hcol : ∀ m < 16, col H m ≠ ssyn H c)
    {j k : Nat} (h : sloc2 H (ssyn H c) = some (j, k)) : schk H c = .double j k := by
  rw [schk, if_neg hne, sloc1_none.mpr hcol, h]

theorem schk_of_unlocated {H : Columns} {c : BitVec 16} (hne : ssyn H c ≠ 0#8) (hcol : ∀ m < 16, col H m ≠ ssyn H c)
    (hpair : ∀ k < 16, ∀ j < k, col H j ^^^ col H k ≠ ssyn H c) : schk H c = .unlocated := by
  rw [schk, if_neg hne, sloc1_none.mpr hcol, sloc2_none.mpr hpair]

/-! SCHK of a codeword with at most two flips (42_secded.md R122). -/

theorem schk_senc {H : Columns} (hV2 : V2 H) (d : Byte) : schk H (senc H d) = .none :=
  schk_of_zero ((v2_iff H).mp hV2 d)

theorem schk_flipAt_single {H : Columns} (hV1 : V1 H) (hV2 : V2 H) (d : Byte) {a : Nat} (ha : a < 16) :
    schk H (flipAt (senc H d) [a]) = .single a :=
  schk_of_column hV1 ha (ssyn_flipAt_single hV2 d ha)

theorem schk_flipAt_pair_of_column {H : Columns} (hV1 : V1 H) (hV2 : V2 H) (d : Byte) {a b m : Nat} (hab : a < b)
    (hb : b < 16) (hm : m < 16) (h : col H m = col H a ^^^ col H b) :
    schk H (flipAt (senc H d) [a, b]) = .single m :=
  schk_of_column hV1 hm ((ssyn_flipAt_pair hV2 d hab hb).trans h.symm)

theorem schk_flipAt_pair {H : Columns} (hV1 : V1 H) (hV2 : V2 H) (d : Byte) {a b j k : Nat} (hab : a < b) (hb : b < 16)
    (hcol : ∀ m < 16, col H m ≠ col H a ^^^ col H b) (h : sloc2 H (col H a ^^^ col H b) = some (j, k)) :
    schk H (flipAt (senc H d) [a, b]) = .double j k := by
  have hsyn : ssyn H (flipAt (senc H d) [a, b]) = col H a ^^^ col H b := ssyn_flipAt_pair hV2 d hab hb
  exact schk_of_pair (hsyn ▸ col_xor_col_ne_zero hV1 hab hb) (hsyn ▸ hcol) (hsyn ▸ h)

/-! The transactions. -/

theorem drives_exec_senc {s : State} {c : BitVec 16} (h : senc s.cfg.H.cols (dataOperand s.operands) = c) :
    drives (exec .senc s) s { q := c, cls := 0, p0 := 0, p1 := 0 } := by
  rw [← BitVec.setWidth_eq c, ← h]
  exact drives_drive s _

theorem drives_exec_ssyn {s : State} {y : Byte} (h : ssyn s.cfg.H.cols s.operands.a = y) :
    drives (exec .ssyn s) s (vectorPorts y) := h ▸ drives_drive s _

theorem drives_exec_sdec {s : State} {d : Byte} (h : sdec s.operands.a = d) :
    drives (exec .sdec s) s (vectorPorts d) := h ▸ drives_drive s _

theorem drives_exec_sloc1 {s : State} {r : Option Nat} (h : sloc1 s.cfg.H.cols (secSynOperand s.operands) = r) :
    drives (exec .sloc1 s) s (hitPorts1 r) := h ▸ drives_drive s _

theorem drives_exec_sloc2 {s : State} {r : Option (Nat × Nat)}
    (h : sloc2 s.cfg.H.cols (secSynOperand s.operands) = r) : drives (exec .sloc2 s) s (hitPorts2 r) :=
  h ▸ drives_drive s _

theorem drives_exec_schk {s : State} {v : Verdict} (h : schk s.cfg.H.cols s.operands.a = v) :
    drives (exec .schk s) s (verdictPorts v) := h ▸ drives_drive s _

/-- Settles O18: the parity bits of SENC are the rows of the sum of columns. -/
theorem sencAppendsTheParityByte : Obligations.SencAppendsTheParityByte := by
  rintro s _ rfl
  exact drives_exec_senc (senc_eq_append _ _)

/-- Settles O19: row r of the sum of columns is bit r of SSYN. -/
theorem ssynSumsTheColumns : Obligations.SsynSumsTheColumns := fun _ => drives_exec_ssyn (ssyn_eq_columnSum _ _)

/-- Settles O20: SSYN is linear and V2 makes it 0 on codewords; a codeword is known from its data byte. -/
theorem ssynLaws : Obligations.SsynLaws := by
  intro H
  have hV2 : V2 H.cols := ParityMatrix_v2 H
  refine ⟨ssyn_xor H.cols, (v2_iff H.cols).mp hV2, fun d F => ssyn_flipAt_senc hV2 d, fun d d' => ⟨d ^^^ d', ?_⟩,
    fun d hne hzero => hne ?_⟩
  · rw [senc_xor]
  · rw [sdec_senc] at hzero
    rw [hzero]
    exact senc_zero H.cols

/-- Settles O24: of the codeword of d the first byte is d, and a flip at a parity index is outside that byte. -/
theorem sdecTakesTheDataByte : Obligations.SdecTakesTheDataByte :=
  ⟨fun _ => drives_exec_sdec (sdec_eq_extractLsb _), sdec_senc, fun c _ => sdec_flipAt_parity c⟩

/-- Settles O21: under V1 the columns are distinct, so a hit is at the column's own index, and 0 is none of them. -/
theorem sloc1MatchesTheColumn : Obligations.Sloc1MatchesTheColumn := by
  rintro s y rfl
  have hV1 : V1 s.cfg.H.cols := ParityMatrix_v1 s.cfg.H
  refine ⟨fun j hj hcol => ?_, fun hmiss => ?_, fun hzero => ?_⟩
  · exact drives_exec_sloc1 (hcol ▸ sloc1_col hV1 hj)
  · exact drives_exec_sloc1 (sloc1_none.mpr hmiss)
  · exact drives_exec_sloc1 ((congrArg (sloc1 _) hzero).trans (sloc1_zero hV1))

/-- Settles O22: the search visits the pairs in order, so it stops at the least; under V4 there is one pair at most, and under
V1 no sum of two columns is 0. -/
theorem sloc2FindsTheLeastPair : Obligations.Sloc2FindsTheLeastPair := by
  rintro s y rfl
  refine ⟨fun k hk j hjk hsum hleast => ?_, fun hmiss => ?_, fun hzero => ?_⟩
  · obtain hleast | hV4 := hleast
    · exact drives_exec_sloc2 (sloc2_of_noEarlierPair hjk hk hsum hleast)
    · exact drives_exec_sloc2 (sloc2_of_v4 hV4 hjk hk hsum)
  · exact drives_exec_sloc2 (sloc2_none.mpr hmiss)
  · exact drives_exec_sloc2 ((congrArg (sloc2 _) hzero).trans (sloc2_zero (ParityMatrix_v1 s.cfg.H)))

/-- Settles O23: one case for each answer of SCHK. -/
theorem schkTestsInOrder : Obligations.SchkTestsInOrder := by
  rintro s y rfl
  refine ⟨fun hzero => ?_, fun j hj hcol => ?_, fun hne hcol => ⟨fun k hk j hjk hsum hleast => ?_, fun hmiss => ?_⟩⟩
  · exact drives_exec_schk (schk_of_zero hzero)
  · exact drives_exec_schk (schk_of_column (ParityMatrix_v1 s.cfg.H) hj hcol.symm)
  · exact drives_exec_schk (schk_of_pair hne hcol (sloc2_of_noEarlierPair hjk hk hsum hleast))
  · exact drives_exec_schk (schk_of_unlocated hne hcol hmiss)

/-- Settles O25: the syndrome is the sum of the flipped columns, which has a least pair since the flipped pair is one. -/
theorem schkOnAFlippedCodeword : Obligations.SchkOnAFlippedCodeword := by
  intro s d H received
  have hV1 : V1 H := ParityMatrix_v1 s.cfg.H
  have hV2 : V2 H := ParityMatrix_v2 s.cfg.H
  have hdrives (F : List Nat) {v : Verdict} (h : schk H (flipAt (senc H d) F) = v) :
      drives (exec .schk (received F)) (received F) (verdictPorts v) := drives_exec_schk (s := received F) h
  refine ⟨?_, fun a ha => ?_, fun b hb a hab m hm hcol => ?_, fun b hb a hab hcol => ?_⟩
  · exact hdrives [] (by rw [flipAt_nil, schk_senc hV2])
  · exact hdrives [a] (schk_flipAt_single hV1 hV2 d ha)
  · obtain ⟨hma, hmb⟩ := ne_of_col_eq_xor hV1 (hab.trans hb) hb hcol
    exact ⟨hma, hmb, hdrives [a, b] (schk_flipAt_pair_of_column hV1 hV2 d hab hb hm hcol)⟩
  · obtain ⟨j, k, hpair⟩ := exists_sloc2 (H := H) hab hb rfl
    obtain ⟨hjk, hk, hsum⟩ := sloc2_some hpair
    refine ⟨k, hk, j, hjk, hsum, noEarlierPair_of_sloc2 hpair, pair_eq_or_disjoint hV1 hab hb hjk hk hsum, fun hV4 => ?_,
      hdrives [a, b] (schk_flipAt_pair hV1 hV2 d hab hb hcol hpair)⟩
    cases hpair.symm.trans (sloc2_of_v4 hV4 hab hb rfl)
    exact ⟨rfl, rfl⟩

end Sys2Proof.Machine
end

/-! ### Located syndromes

With V1, V3 and V4 the 16 columns and the 120 sums of two are pairwise distinct and not 0, so they are counted
(10_state.md R28, 42_secded.md R122). -/

section
namespace Sys2Proof.Machine

/-- The columns and then the sums of two columns. -/
def locatedSyndromes (H : Columns) : List Byte :=
  (List.range 16).map (col H) ++ columnPairs.map fun p => col H p.1 ^^^ col H p.2

theorem mem_locatedSyndromes {H : Columns} {y : Byte} :
    y ∈ locatedSyndromes H ↔ ((sloc1 H y).isSome || (sloc2 H y).isSome) = true := by
  rw [locatedSyndromes, List.mem_append, Bool.or_eq_true, sloc1, sloc2, List.find?_isSome, List.find?_isSome]
  simp only [List.mem_map, beq_iff_eq]

theorem length_locatedSyndromes (H : Columns) : (locatedSyndromes H).length = 136 := by
  rw [locatedSyndromes, List.length_append, List.length_map, List.length_map]
  rfl

theorem zero_notMem_locatedSyndromes {H : Columns} (hV1 : V1 H) : 0#8 ∉ locatedSyndromes H := by
  rw [mem_locatedSyndromes, sloc1_zero hV1, sloc2_zero hV1]
  decide

theorem nodup_columns {H : Columns} (hV1 : V1 H) : ((List.range 16).map (col H)).Nodup :=
  List.nodup_range.map_on fun _ hj _ hk => col_inj hV1 (List.mem_range.mp hj) (List.mem_range.mp hk)

theorem nodup_columnPairs : columnPairs.Nodup :=
  ascending_columnPairs.imp fun h heq => by subst heq; omega

theorem nodup_pair_sums {H : Columns} (hV4 : V4 H) : (columnPairs.map fun p => col H p.1 ^^^ col H p.2).Nodup :=
  nodup_columnPairs.map_on fun p hp q hq hsum => by_contra fun hne => hV4 p hp q hq hne hsum

theorem nodup_locatedSyndromes {H : Columns} (hV1 : V1 H) (hV3 : V3 H) (hV4 : V4 H) : (locatedSyndromes H).Nodup := by
  refine List.nodup_append.mpr ⟨nodup_columns hV1, nodup_pair_sums hV4, ?_⟩
  intro x hx y hy hxy
  obtain ⟨m, hm, rfl⟩ := List.mem_map.mp hx
  obtain ⟨⟨j, k⟩, hjk, rfl⟩ := List.mem_map.mp hy
  obtain ⟨hjk, hk⟩ := (mem_columnPairs j k).mp hjk
  exact hV3 k hk j hjk m (List.mem_range.mp hm) hxy.symm

/-- The numbers below 256 with a property are as many as the bytes of a list without repetition that has those bytes. -/
theorem length_filter_range_eq_length {p : Byte → Bool} {l : List Byte} (hl : l.Nodup)
    (h : ∀ y, y ∈ l ↔ p y = true) : ((List.range 256).filter fun n => p (BitVec.ofNat 8 n)).length = l.length := by
  have hbytes : ((List.range 256).map (BitVec.ofNat 8)).Nodup :=
    List.nodup_range.map_on fun m hm n hn hmn => by
      simpa [Nat.mod_eq_of_lt (List.mem_range.mp hm), Nat.mod_eq_of_lt (List.mem_range.mp hn)] using
        congrArg BitVec.toNat hmn
  have hall (y : Byte) : y ∈ (List.range 256).map (BitVec.ofNat 8) :=
    List.mem_map.mpr ⟨y.toNat, List.mem_range.mpr y.isLt, by simp⟩
  have hperm : (((List.range 256).map (BitVec.ofNat 8)).filter p).Perm l :=
    (List.perm_ext_iff_of_nodup (hbytes.filter p) hl).mpr fun y => by simp [-List.mem_map, hall, h]
  rw [← hperm.length_eq, List.filter_map, List.length_map]
  rfl

/-- Settles O26: the 136 located syndromes are distinct and not 0, and the other non-zero ones are the rest of 255. -/
theorem locatedSyndromesUnderV3V4 : Obligations.LocatedSyndromesUnderV3V4 := by
  intro H hV3 hV4 located
  have hV1 : V1 H.cols := ParityMatrix_v1 H
  have hzero : located 0 = false := by
    rw [← Bool.not_eq_true]
    exact mt mem_locatedSyndromes.mpr (zero_notMem_locatedSyndromes hV1)
  have hnonzero (y : Nat) : (y != 0 && located y) = located y := by
    by_cases h : y = 0
    · rw [h, hzero, Bool.and_false]
    · rw [bne_iff_ne.mpr h, Bool.true_and]
  have hcount : ((List.range 256).filter fun y => y != 0 && located y).length = 136 := by
    simp only [hnonzero]
    exact (length_filter_range_eq_length (nodup_locatedSyndromes hV1 hV3 hV4) fun _ => mem_locatedSyndromes).trans
      (length_locatedSyndromes H.cols)
  have hsplit := List.length_eq_length_filter_add (l := (List.range 256).filter (· != 0)) located
  have hall : ((List.range 256).filter (· != 0)).length = 255 := by decide +kernel
  simp only [List.filter_filter, Bool.and_comm (located _), Bool.and_comm (!located _), hcount, hall] at hsplit
  exact ⟨hcount, by omega⟩

end Sys2Proof.Machine
end

/-! ### SECDED buffers

A codeword of 16 bits is two whole bytes, so encode2Bit interleaves data and parity bytes, and decode2Bit takes every other byte
(20_memory.md R43; 42_secded.md R124, R126, R128). -/

section
namespace Sys2Proof.Machine

theorem bitAt_codewordAt (W : Nat) (buf : Buffer) (k : Nat) {b : Nat} (hb : b < W) :
    bitAt (codewordAt W buf k) b = streamBit buf (k * W + b) := by
  rw [codewordAt, bitAt_ofBits, decide_eq_true hb, Bool.true_and]

/-- The stream bits of byte a (20_memory.md R42). -/
theorem streamBit_of_byte (buf : Buffer) (a : Nat) {i : Nat} (hi : i < 8) :
    streamBit buf (a * 8 + i) = bitAt (buf.getD a 0) i := by
  rw [← bitAt_codewordAt 8 buf a hi, codewordAt_eight]

/-- Codeword k of width 16 is byte 2k and then byte 2k + 1 (20_memory.md R43). -/
theorem codewordAt_sixteen (buf : Buffer) (k : Nat) :
    codewordAt 16 buf k = buf.getD (2 * k) 0 ++ buf.getD (2 * k + 1) 0 :=
  eq_of_bitAt_eq fun b hb => by
    rw [bitAt_codewordAt 16 buf k hb, bitAt_append]
    split
    case isTrue hdata =>
      have hposition : k * 16 + b = 2 * k * 8 + b := by omega
      rw [hposition, streamBit_of_byte buf _ hdata]
    case isFalse hparity =>
      have hposition : k * 16 + b = (2 * k + 1) * 8 + (b - 8) := by omega
      rw [hposition, streamBit_of_byte buf _ (by omega)]

/-- Words of two bytes are equal when their bytes are. -/
theorem append_inj {x y x' y' : Byte} (h : (x ++ y : BitVec 16) = x' ++ y') : x = x' ∧ y = y' := by
  constructor
  · rw [← sdec_append x y, h, sdec_append]
  · simpa only [BitVec.setWidth_append_eq_right] using congrArg (BitVec.setWidth 8) h

theorem secEncode_length (H : Columns) (data : Buffer) : (secEncode H data).length = 2 * data.length := by
  rw [secEncode_eq, pack_codewords_length, List.length_map]
  omega

theorem codewordAt_secEncode (H : Columns) (data : Buffer) {k : Nat} (hk : k < data.length) :
    codewordAt 16 (secEncode H data) k = senc H (data.getD k 0) := by
  rw [secEncode_eq, codewordAt_pack, List.getD_eq_getElem _ _ hk, List.getD_eq_getElem _ _ (by simpa using hk),
    List.getElem_map]

/-- Settles O42: codeword k is the data byte and its sum of columns, and is bytes 2k and 2k + 1. -/
theorem encode2BitInterleavesDataAndParity : Obligations.Encode2BitInterleavesDataAndParity := by
  refine fun s => ⟨_, givesBack_giveBack s _, secEncode_length _ _, fun k hk => append_inj ?_⟩
  rw [← codewordAt_sixteen, codewordAt_secEncode _ _ hk, senc_eq_append]
  rfl

theorem mem_reportedIndices {v : Verdict} {b : Nat} :
    b ∈ reportedIndices v ↔ v = .single b ∨ (∃ j, v = .double j b) ∨ ∃ j, v = .double b j := by
  cases v with
  | none | unlocated => simp [reportedIndices]
  | single p => simp [reportedIndices, eq_comm]
  | double p q => simp [reportedIndices, eq_comm, or_comm]

/-- The complete codewords of two bytes (20_memory.md R43, R46). -/
theorem count_sixteen (n : Nat) : 8 * n / 16 = n / 2 := by omega

/-- Settles O43: the entries of codeword k are what SCHK locates in it. -/
theorem check2BitReportsTheLocatedBits : Obligations.Check2BitReportsTheLocatedBits := by
  intro s
  obtain ⟨hascending, -, -⟩ := secCheck_reportForm s.cfg.H.cols s.operands.buf
  refine ⟨_, givesBack_giveBack s _, hascending, fun k b => ?_⟩
  rw [secCheck_eq_entries, mem_entries, count_sixteen, mem_reportedIndices, codewordAt_sixteen, exists_eq_left]

theorem secDecode_length (buf : Buffer) : (secDecode buf).length = buf.length / 2 := by
  rw [secDecode_eq, List.length_map, codewords_length, count_sixteen]

theorem getD_secDecode (buf : Buffer) {k : Nat} (hk : k < buf.length / 2) :
    (secDecode buf).getD k 0 = buf.getD (2 * k) 0 := by
  rw [secDecode_eq, getD_map_codewords sdec buf 0 (count_sixteen _ ▸ hk), codewordAt_sixteen, sdec_append]

/-- Settles O44: decode2Bit maps SDEC over the codewords, and SDEC takes the first of the two bytes. -/
theorem decode2BitTakesTheDataBytes : Obligations.Decode2BitTakesTheDataBytes := fun s =>
  ⟨_, givesBack_giveBack s _, secDecode_length _, fun _ hk => getD_secDecode _ (secDecode_length _ ▸ hk)⟩

end Sys2Proof.Machine
end

/-! ### Reception with the SECDED code

As with the Hamming code, a codeword whose flips are reported exactly is restored (42_secded.md R130; 30_encoding.md R72). One
flip is always reported exactly, two when H has V3 and V4; without V3 and V4 some double flip is not, since SCHK answers a column
or another pair of the same sum. -/

section
namespace Sys2Proof.Machine

/-- A buffer of whole codewords is its codewords. -/
theorem eq_of_codewordAt_eq {W n : Nat} {x y : Buffer} (hlength : x.length = y.length) (hwhole : 8 * x.length = n * W)
    (h : ∀ k < n, codewordAt W x k = codewordAt W y k) : x = y := by
  refine eq_of_streamBit_eq hlength fun m hm => ?_
  have hk : m / W < n := Nat.div_lt_of_lt_mul (by rwa [Nat.mul_comm, ← hwhole])
  have hW : W ≠ 0 := by
    rintro rfl
    omega
  have hb : m % W < W := Nat.mod_lt m (Nat.pos_of_ne_zero hW)
  have hbit (z : Buffer) : bitAt (codewordAt W z (m / W)) (m % W) = streamBit z m := by
    rw [bitAt_codewordAt W z _ hb, Nat.div_add_mod']
  rw [← hbit, ← hbit, h _ hk]

/-- fixErrors2Bit after check2Bit (30_encoding.md R72). -/
def secFixed (H : Columns) (t : Buffer) : Buffer := applyFixes 16 t (secCheck H t)

/-- The three transactions of recv2Bit complete, each with the result of the one before (30_encoding.md R72). -/
theorem recv2Bit_eq (s : State) (o : Operands) (t : Buffer) :
    recv2Bit s o t = some (secCheck s.cfg.H.cols t, secFixed s.cfg.H.cols t, secDecode (secFixed s.cfg.H.cols t)) := rfl

/-- The flips F, made in any codeword, are what SCHK locates (42_secded.md R122). -/
def ReportsExactly (H : Columns) (F : List Nat) : Prop :=
  ∀ d : Byte, reportedIndices (schk H (flipAt (senc H d) F)) = F

/-- Flips that are reported exactly in each codeword are undone by fixErrors2Bit, and the data come back. -/
theorem recv2Bit_of_reportsExactly {s : State} {H : Columns} (hH : s.cfg.H.cols = H) (o : Operands)
    {data t : Buffer} {F : Nat → List Nat} (hlength : t.length = (secEncode H data).length)
    (hF : ∀ k < data.length, ReportsExactly H (F k))
    (hflips : ∀ k < data.length, codewordAt 16 t k = flipAt (codewordAt 16 (secEncode H data) k) (F k)) :
    recv2Bit s o t = some (entries data.length F, secEncode H data, data) := by
  subst hH
  have hcount : 8 * t.length / 16 = data.length := by rw [hlength, secEncode_length]; omega
  have hlocated : ∀ k < data.length, reportedIndices (schk s.cfg.H.cols (codewordAt 16 t k)) = F k := by
    intro k hk
    rw [hflips k hk, codewordAt_secEncode _ data hk, hF k hk]
  have hreport : secCheck s.cfg.H.cols t = entries (8 * t.length / 16) F := by
    rw [secCheck_eq_entries, hcount, entries_congr hlocated]
  have hfixed : secFixed s.cfg.H.cols t = secEncode s.cfg.H.cols data := by
    have hfixedLength : (secFixed s.cfg.H.cols t).length = (secEncode s.cfg.H.cols data).length := by
      rw [secFixed, applyFixes_length, hlength]
    refine eq_of_codewordAt_eq (W := 16) (n := data.length) hfixedLength ?_ fun k hk => ?_
    · rw [hfixedLength, secEncode_length]; omega
    · rw [secFixed, hreport, codewordAt_applyFixes_entries t F (hcount ▸ hk), hflips k hk, flipAt_flipAt_self]
  rw [recv2Bit_eq, hfixed, secDecode_secEncode, hreport, hcount]

/-! Which flips are reported exactly. -/

theorem reportsExactly_nil {H : Columns} (hV2 : V2 H) : ReportsExactly H [] := fun d => by
  rw [flipAt_nil, schk_senc hV2, reportedIndices]

theorem reportsExactly_single {H : Columns} (hV1 : V1 H) (hV2 : V2 H) {a : Nat} (ha : a < 16) : ReportsExactly H [a] :=
  fun d => by rw [schk_flipAt_single hV1 hV2 d ha, reportedIndices]

/-- Under V3 and V4 the sum of two columns is no column and the sum of no other pair (42_secded.md R122). -/
theorem schk_flipAt_pair_of_v3_v4 {H : Columns} (hV1 : V1 H) (hV2 : V2 H) (hV3 : V3 H) (hV4 : V4 H) (d : Byte)
    {a b : Nat} (hab : a < b) (hb : b < 16) : schk H (flipAt (senc H d) [a, b]) = .double a b :=
  schk_flipAt_pair hV1 hV2 d hab hb (fun m hm => (hV3 b hb a hab m hm).symm) (sloc2_of_v4 hV4 hab hb rfl)

theorem reportsExactly_of_length_le_one {H : Columns} (hV1 : V1 H) (hV2 : V2 H) {F : List Nat} (hlength : F.length ≤ 1)
    (hF : ∀ b ∈ F, b < 16) : ReportsExactly H F := by
  match F, hlength with
  | [], _ => exact reportsExactly_nil hV2
  | [a], _ => exact reportsExactly_single hV1 hV2 (hF a List.mem_cons_self)

theorem reportsExactly_of_length_le_two {H : Columns} (hV1 : V1 H) (hV2 : V2 H) (hV3 : V3 H) (hV4 : V4 H) {F : List Nat}
    (hlength : F.length ≤ 2) (hordered : F.Pairwise (· < ·)) (hF : ∀ b ∈ F, b < 16) : ReportsExactly H F := by
  match F, hlength with
  | [], _ => exact reportsExactly_nil hV2
  | [a], _ => exact reportsExactly_single hV1 hV2 (hF a List.mem_cons_self)
  | [a, b], _ =>
    have hab : a < b := List.pairwise_pair.mp hordered
    intro d
    rw [schk_flipAt_pair_of_v3_v4 hV1 hV2 hV3 hV4 d hab (hF b (by simp)), reportedIndices]

/-- Settles O49: at most one flip in a codeword is reported exactly, so reception undoes it. -/
theorem secdedReceptionCorrectsOneFlipPerCodeword : Obligations.SecdedReceptionCorrectsOneFlipPerCodeword := by
  intro s s' o o' data hH
  refine ⟨_, secEncode s.cfg.H.cols data, transact_eq_exec _ _ _, rfl, fun t' F hlength hflips => ?_⟩
  refine recv2Bit_of_reportsExactly (congrArg ParityMatrix.cols hH) o' hlength (fun k hk => ?_) fun k hk => ?_
  · obtain ⟨hone, hinside, -⟩ := hflips k hk
    exact reportsExactly_of_length_le_one (ParityMatrix_v1 _) (ParityMatrix_v2 _) hone hinside
  · obtain ⟨-, -, hword⟩ := hflips k hk
    exact hword

/-- Settles O50: with V3 and V4 at most two flips in a codeword are reported exactly, so reception undoes them. -/
theorem secdedReceptionCorrectsTwoFlipsUnderV3V4 : Obligations.SecdedReceptionCorrectsTwoFlipsUnderV3V4 := by
  intro s s' o o' data hH hV3 hV4
  refine ⟨_, secEncode s.cfg.H.cols data, transact_eq_exec _ _ _, rfl, fun t' F hlength hflips => ?_⟩
  refine recv2Bit_of_reportsExactly (congrArg ParityMatrix.cols hH) o' hlength (fun k hk => ?_) fun k hk => ?_
  · obtain ⟨htwo, hordered, hinside, -⟩ := hflips k hk
    exact reportsExactly_of_length_le_two (ParityMatrix_v1 _) (ParityMatrix_v2 _) hV3 hV4 htwo hordered hinside
  · obtain ⟨-, -, -, hword⟩ := hflips k hk
    exact hword

/-! Correctable double flips. -/

/-- Two pairs of flips that undo each other are the same pair: a word bit that the first changes, the second changes too. -/
theorem pair_eq_of_flipAt_eq_zero {a b j k : Nat} (hab : a < b) (hb : b < 16) (hjk : j < k)
    (h : flipAt 0#16 [a, b, j, k] = 0#16) : j = a ∧ k = b := by
  have hmem (i : Nat) (hi : i < 16) (hone : (i == a ^^ i == b) = true) : i = j ∨ i = k := by
    by_contra! hne
    have hbit : bitAt (flipAt 0#16 [a, b, j, k]) i = false := by rw [h, bitAt_zero]
    simp [hi, hne, hone] at hbit
  have ha' : a = j ∨ a = k := hmem a (hab.trans hb) (by simp [hab.ne])
  have hb' : b = j ∨ b = k := hmem b hb (by simp [hab.ne'])
  omega

/-- With R invertible, a double flip of a codeword is corrected by its own pair alone (42_secded.md R130 (c)). -/
theorem pair_eq_of_corrects {H : ParityMatrix} (hR : ∀ x : Byte, ssyn H.cols (x.setWidth 16) = 0 → x = 0) {a b j k : Nat}
    (hab : a < b) (hb : b < 16) (hschk : schk H.cols (flipAt (senc H.cols 0#8) [a, b]) = .double j k)
    (hsdec : sdec (flipAt (senc H.cols 0#8) [a, b, j, k]) = 0#8) : j = a ∧ k = b := by
  obtain ⟨hjk, hk, hsum⟩ := sloc2_some (schk_eq_double hschk)
  rw [ssyn_flipAt_pair (ParityMatrix_v2 H) 0#8 hab hb] at hsum
  have hsyndrome : ssyn H.cols (flipAt (senc H.cols 0#8) [a, b, j, k]) = 0#8 := by
    rw [ssyn_flipAt_senc (ParityMatrix_v2 H) 0#8 (by simp; omega)]
    simp only [List.foldl_cons, List.foldl_nil, BitVec.zero_xor]
    rw [BitVec.xor_assoc, hsum, BitVec.xor_self]
  obtain ⟨d, hd⟩ := (zeroSyndromeIsValidIffRInvertible H).mpr hR _ hsyndrome
  rw [hd, sdec_senc] at hsdec
  rw [hsdec, senc_zero] at hd
  exact pair_eq_of_flipAt_eq_zero hab hb hjk hd

/-- If SCHK answers every double flip with its own pair, H has V3 and V4: a column would be answered first, and one syndrome has
one answer. -/
theorem v3_v4_of_schk_pair {H : Columns} (hV1 : V1 H) (hV2 : V2 H)
    (h : ∀ b < 16, ∀ a < b, schk H (flipAt (senc H 0#8) [a, b]) = .double a b) : V3 H ∧ V4 H := by
  constructor
  · intro k hk j hjk m hm hsum
    have hsingle := schk_flipAt_pair_of_column hV1 hV2 0#8 hjk hk hm hsum.symm
    cases (h k hk j hjk).symm.trans hsingle
  · have hsloc2 : ∀ p ∈ columnPairs, sloc2 H (col H p.1 ^^^ col H p.2) = some p := by
      rintro ⟨j, k⟩ hp
      obtain ⟨hjk, hk⟩ := (mem_columnPairs j k).mp hp
      rw [← ssyn_flipAt_pair hV2 0#8 hjk hk]
      exact schk_eq_double (h k hk j hjk)
    intro p hp q hq hne hsum
    have hsame : some p = some q := by rw [← hsloc2 p hp, hsum, hsloc2 q hq]
    exact hne (Option.some.inj hsame)

/-- Settles O51: a correction that restores the data byte is the flipped pair, which SCHK answers for every pair exactly when H
has V3 and V4. -/
theorem doubleFlipCorrectionIffV3V4 : Obligations.DoubleFlipCorrectionIffV3V4 := by
  intro H hR
  have hV1 : V1 H.cols := ParityMatrix_v1 H
  have hV2 : V2 H.cols := ParityMatrix_v2 H
  constructor
  · intro hcorrects
    refine v3_v4_of_schk_pair hV1 hV2 fun b hb a hab => ?_
    obtain ⟨j, k, hschk, hsdec⟩ := hcorrects 0#8 b hb a hab
    obtain ⟨rfl, rfl⟩ := pair_eq_of_corrects hR hab hb hschk hsdec
    exact hschk
  · rintro ⟨hV3, hV4⟩ d b hb a hab
    refine ⟨a, b, schk_flipAt_pair_of_v3_v4 hV1 hV2 hV3 hV4 d hab hb, ?_⟩
    have hrestored : flipAt (senc H.cols d) [a, b, a, b] = senc H.cols d := flipAt_flipAt_self _ [a, b]
    rw [hrestored, sdec_senc]

end Sys2Proof.Machine
end

/-! ### The patcher

A pair addresses the stream bit k·W + b and no other, so what a fix list does to a bit is the parity of the entries that address
it: the order of the list does not matter, and the list applied twice flips nothing (43_patcher.md R135 to R140). -/

section
namespace Sys2Proof.Machine

/-! A pair and a list, on the bits inside the buffer. -/

/-- For a bit inside the buffer the byte bound of 43_patcher.md R136 is no further condition on the pair that addresses it. -/
theorem inRange_and_absBit_eq {L n : Nat} (hn : n < 8 * L) (W : Nat) (kb : ErrorPair) :
    (inRange L W kb.1 kb.2 && decide (absBit W kb.1 kb.2 = n)) = decide (kb.2 < W ∧ kb.1 * W + kb.2 = n) := by
  have hbyte : n / 8 < L := by omega
  rw [inRange, absBit, ← Bool.decide_and, ← Bool.decide_and, decide_eq_decide, and_assoc]
  exact and_congr_right fun _ => and_iff_right_of_imp fun hposition => hposition ▸ hbyte

/-- The sum of the bits `p a` is the parity of the entries that have p. -/
theorem xorAll_map_eq_odd_filter {α : Type} (p : α → Bool) (l : List α) :
    xorAll (l.map p) = decide ((l.filter p).length % 2 = 1) := by
  induction l with
  | nil => rfl
  | cons a l ih =>
    rw [List.map_cons, xorAll_cons, ih, List.filter_cons]
    cases p a with
    | false => simp
    | true =>
      rw [Bool.true_xor, ← decide_not, if_pos rfl, List.length_cons, decide_eq_decide]
      omega

theorem streamBit_patch_of_lt {buf : Buffer} {n : Nat} (hn : n < 8 * buf.length) (W : Nat) (kb : ErrorPair) :
    streamBit (patch buf W kb) n = (streamBit buf n ^^ decide (kb.2 < W ∧ kb.1 * W + kb.2 = n)) := by
  rw [streamBit_patch, inRange_and_absBit_eq hn]

/-- Every bit of the buffer is flipped once for each entry that addresses it (43_patcher.md R140). -/
theorem streamBit_applyFixes_of_lt {buf : Buffer} {n : Nat} (hn : n < 8 * buf.length) (W : Nat) (l : List ErrorPair) :
    streamBit (applyFixes W buf l) n =
      (streamBit buf n ^^ decide ((l.filter fun kb => kb.2 < W ∧ kb.1 * W + kb.2 = n).length % 2 = 1)) := by
  simp only [streamBit_applyFixes, inRange_and_absBit_eq hn, xorAll_map_eq_odd_filter]

/-- The order of a fix list does not matter (43_patcher.md R140 (a)). -/
theorem applyFixes_perm (W : Nat) (buf : Buffer) {l l' : List ErrorPair} (h : l.Perm l') :
    applyFixes W buf l = applyFixes W buf l' := by
  refine eq_of_streamBit_eq (by rw [applyFixes_length, applyFixes_length]) fun n hn => ?_
  rw [applyFixes_length] at hn
  rw [streamBit_applyFixes_of_lt hn, streamBit_applyFixes_of_lt hn, (h.filter _).length_eq]

/-- A fix list undoes itself (43_patcher.md R140 (b)). -/
theorem applyFixes_applyFixes_self (W : Nat) (buf : Buffer) (l : List ErrorPair) :
    applyFixes W (applyFixes W buf l) l = buf := by
  have hlength : (applyFixes W (applyFixes W buf l) l).length = buf.length := by rw [applyFixes_length, applyFixes_length]
  refine eq_of_streamBit_eq hlength fun n hn => ?_
  rw [hlength] at hn
  rw [streamBit_applyFixes_of_lt ((applyFixes_length W buf l).symm ▸ hn), streamBit_applyFixes_of_lt hn, Bool.xor_assoc,
    Bool.xor_self, Bool.xor_false]

/-! A pair, on the bytes of the buffer. -/

/-- A pair in range flips its bit in its byte, and keeps the other bytes (43_patcher.md R137). -/
theorem memRead_patch_of_inRange {buf : Buffer} {W : Nat} {kb : ErrorPair}
    (h : inRange buf.length W kb.1 kb.2 = true) (a : Nat) :
    memRead (patch buf W kb) a =
      if a = absBit W kb.1 kb.2 / 8 then memRead buf a ^^^ (1#8 <<< (7 - absBit W kb.1 kb.2 % 8))
      else memRead buf a := by
  have hbyte : absBit W kb.1 kb.2 / 8 < buf.length := by
    simp only [inRange, Bool.and_eq_true, decide_eq_true_eq] at h
    exact h.2
  rw [patch, if_pos h]
  split
  case isTrue ha => rw [ha, memRead_memWrite_same _ _ _ hbyte]
  case isFalse ha => exact memRead_memWrite_other _ _ _ _ ha

/-- The mask of 43_patcher.md R137, counted from the top of the byte. -/
theorem one_shiftLeft_eq_top_shiftRight {i : Nat} (hi : i < 8) : 1#8 <<< (7 - i) = 0x80#8 >>> i := by
  decide +revert

/-! The operations. -/

/-- fixErrors has width 12 and fixErrors2Bit width 16 (43_patcher.md R138, R139). -/
theorem givesBack_exec_fix {iW : Instr × Nat} (h : iW ∈ [(Instr.fixErrors, 12), (.fixErrors2Bit, 16)]) (s : State) :
    givesBack (exec iW.1 s) s (.bytes (applyFixes iW.2 s.operands.buf s.operands.errors)) := by
  simp only [List.mem_cons, List.not_mem_nil, or_false] at h
  rcases h with rfl | rfl
  · exact givesBack_giveBack s _
  · exact givesBack_giveBack s _

/-- Settles O34: for a bit inside the buffer the byte of the pair that addresses it is inside too. -/
theorem patchFlipsTheAddressedBit : Obligations.PatchFlipsTheAddressedBit := fun s =>
  ⟨_, givesBack_giveBack s _, patch_length _ _ _, fun _ hn => streamBit_patch_of_lt hn _ _⟩

/-- Settles O35: the flips of a bit add up to the parity of the entries that address it. -/
theorem fixesFlipTheListedBits : Obligations.FixesFlipTheListedBits := fun _ hiW s =>
  ⟨_, givesBack_exec_fix hiW s, applyFixes_length _ _ _, fun _ hn => streamBit_applyFixes_of_lt hn _ _⟩

/-- Settles O37: a parity does not depend on the order, and twice the same parity is no flip. -/
theorem fixListsCommuteAndUndoThemselves : Obligations.FixListsCommuteAndUndoThemselves := by
  refine fun iW hiW s => ⟨_, givesBack_exec_fix hiW s, fun l hl => ?_, ?_⟩
  · rw [applyFixes_perm _ _ hl]
    exact givesBack_exec_fix hiW _
  · have htwice := givesBack_exec_fix hiW { s with operands :=
      { s.operands with buf := applyFixes iW.2 s.operands.buf s.operands.errors } }
    rwa [applyFixes_applyFixes_self] at htwice

/-- Settles O38: 16 bits are two whole bytes, so `k·16 + b` is bit `b % 8` of byte `2·k + b // 8`. -/
theorem fixErrors2BitAddressesDataAndParityByte : Obligations.FixErrors2BitAddressesDataAndParityByte := by
  intro s k b herrors hb hbyte
  have hbyteOf : absBit 16 k b / 8 = 2 * k + b / 8 := by rw [absBit]; omega
  have hbitOf : absBit 16 k b % 8 = b % 8 := by rw [absBit]; omega
  have hinRange : inRange s.operands.buf.length 16 k b = true := by simp [inRange, hbyteOf, hb, hbyte]
  refine ⟨_, givesBack_giveBack s _, applyFixes_length _ _ _, fun a _ => ?_⟩
  rw [herrors, applyFixes_cons, applyFixes_nil, ← one_shiftLeft_eq_top_shiftRight (Nat.mod_lt b (by decide)), ← hbitOf,
    ← hbyteOf]
  exact memRead_patch_of_inRange hinRange a

end Sys2Proof.Machine
end

/-! ### Refusals and silent passes

The step answers whatever the boundary accepts, and has two reasons to refuse (60_exceptions.md R150). A pair out of range and a
codeword with an unlocated syndrome are no reasons: the buffer operations pass over them in silence (R147, R148). -/

section
namespace Sys2Proof.Machine

/-! What the boundary accepts. -/

theorem accepted_of_op_none {s : State} (hop : s.op = none) : accepted s = true := by simp [accepted, hop]

theorem accepted_iff_of_decode {s : State} {op : BitVec 5} {i : Instr} (hop : s.op = some op) (hi : decode op = .ok i) :
    accepted s = true ↔ (i = .b2g → 1 ≤ s.operands.g) := by
  simp only [accepted, hop, hi, decide_eq_true_eq]

theorem accepted_of_decode_eq_error {s : State} {op : BitVec 5} (hop : s.op = some op)
    (h : decode op = .error (.reserved op)) : accepted s = false := by
  simp [accepted, hop, h]

/-- What is presented is nothing, an operation of the table, or a reserved number (30_encoding.md R60, R71). -/
theorem presented_cases (s : State) :
    s.op = none ∨ (∃ op i, s.op = some op ∧ decode op = .ok i) ∨
      ∃ op, s.op = some op ∧ decode op = .error (.reserved op) := by
  cases hop : s.op with
  | none => exact .inl rfl
  | some op =>
    cases hdecode : decode op with
    | ok i => exact .inr (.inl ⟨op, i, rfl, hdecode⟩)
    | error e =>
      obtain ⟨op'⟩ := e
      obtain rfl := eq_of_decode_eq_error hdecode
      exact .inr (.inr ⟨op', rfl, hdecode⟩)

theorem step_answers_of_accepted {s : State} (h : accepted s = true) : ∃ t, step s = .next t := by
  obtain hop | ⟨op, i, hop, hi⟩ | ⟨op, hop, herror⟩ := presented_cases s
  · exact ⟨s.idle, by simp [step, hop]⟩
  · have hg := (accepted_iff_of_decode hop hi).mp h
    rw [step_of_decode hop hi]
    exact exec_answers i s fun hb2g => Nat.one_le_iff_ne_zero.mp (hg hb2g)
  · rw [accepted_of_decode_eq_error hop herror] at h
    cases h

/-- An operation of the table that the boundary does not accept is B2G with g = 0 (40_bitstream_adapter.md R80). -/
theorem b2g_group_size_zero_of_not_accepted {s : State} {op : BitVec 5} {i : Instr} (hop : s.op = some op)
    (hi : decode op = .ok i) (h : accepted s = false) : i = .b2g ∧ s.operands.g = 0 := by
  rw [← Bool.not_eq_true, accepted_iff_of_decode hop hi, Classical.not_imp, Nat.not_le, Nat.lt_one_iff] at h
  exact h

/-- Settles O6: what is presented decides the case, and of the operations only B2G can refuse. -/
theorem stepStopsOnlyAtTheBoundary : Obligations.StepStopsOnlyAtTheBoundary := by
  refine fun s => ⟨step_answers_of_accepted, fun h => ?_⟩
  obtain hop | ⟨op, i, hop, hi⟩ | ⟨op, hop, herror⟩ := presented_cases s
  · rw [accepted_of_op_none hop] at h
    cases h
  · obtain ⟨rfl, hg⟩ := b2g_group_size_zero_of_not_accepted hop hi h
    refine .inr ⟨?_, hg, ?_⟩
    · rw [hop, encode_of_decode hi]
    · rw [step_of_decode hop hi, execB2g_refused s hg]
  · exact .inl ⟨op, hop, (forall_decode_ne_ok_iff op).mpr herror, step_of_decode_eq_error hop herror⟩

/-! Pairs out of range. -/

theorem inRange_eq_decide (L W k b : Nat) : inRange L W k b = decide (b < W ∧ (k * W + b) / 8 < L) :=
  (Bool.decide_and _ _).symm

theorem patch_of_not_inRange {buf : Buffer} {W : Nat} {kb : ErrorPair} (h : ¬ inRange buf.length W kb.1 kb.2 = true) :
    patch buf W kb = buf := if_neg h

/-- The pairs of a fix list that pass the test of 43_patcher.md R136 do all it does. -/
theorem applyFixes_filter_inRange (W : Nat) (buf : Buffer) (l : List ErrorPair) :
    applyFixes W buf (l.filter fun kb => inRange buf.length W kb.1 kb.2) = applyFixes W buf l := by
  induction l generalizing buf with
  | nil => rfl
  | cons kb l ih =>
    rw [List.filter_cons, applyFixes_cons]
    split
    case isTrue => rw [applyFixes_cons, ← ih (patch buf W kb), patch_length]
    case isFalse hout => rw [ih buf, patch_of_not_inRange hout]

/-- Settles O36: a pair out of range leaves the buffer, so the list without it gives the same. -/
theorem outOfRangePairsAreSkipped : Obligations.OutOfRangePairsAreSkipped := by
  refine fun iW hiW s => ⟨_, givesBack_exec_fix hiW s, ?_⟩
  rw [← applyFixes_filter_inRange]
  simp only [inRange_eq_decide]
  exact givesBack_exec_fix hiW _

/-! Unlocated codewords. -/

theorem schk_eq_unlocated {H : Columns} {c : BitVec 16} (hne : ssyn H c ≠ 0#8) (hcolumn : sloc1 H (ssyn H c) = none)
    (hpair : sloc2 H (ssyn H c) = none) : schk H c = .unlocated :=
  schk_of_unlocated hne (sloc1_none.mp hcolumn) (sloc2_none.mp hpair)

@[simp] theorem secFixed_length (H : Columns) (t : Buffer) : (secFixed H t).length = t.length := applyFixes_length 16 t _

/-- The report names the bits SCHK locates in each codeword (42_secded.md R126). -/
theorem mem_secCheck {H : Columns} {t : Buffer} {k b : Nat} :
    (k, b) ∈ secCheck H t ↔ k < t.length / 2 ∧ b ∈ reportedIndices (schk H (codewordAt 16 t k)) := by
  rw [secCheck_eq_entries, mem_entries, count_sixteen]

/-- fixErrors2Bit after check2Bit flips in each codeword the bits SCHK locates. -/
theorem codewordAt_secFixed (H : Columns) (t : Buffer) {k : Nat} (hk : k < t.length / 2) :
    codewordAt 16 (secFixed H t) k = flipAt (codewordAt 16 t k) (reportedIndices (schk H (codewordAt 16 t k))) := by
  rw [secFixed, secCheck_eq_entries, codewordAt_applyFixes_entries t _ (by rwa [count_sixteen])]

/-- Settles O53: SCHK locates no bit in such a codeword, so none is reported and none is flipped. -/
theorem unlocatedCodewordsPassThrough : Obligations.UnlocatedCodewordsPassThrough := by
  refine fun s o t => ⟨_, _, _, recv2Bit_eq s o t, fun k hk hne hcolumn hpair => ?_⟩
  have hschk : schk s.cfg.H.cols (codewordAt 16 t k) = .unlocated := schk_eq_unlocated hne hcolumn hpair
  have hkept : codewordAt 16 (secFixed s.cfg.H.cols t) k = codewordAt 16 t k := by
    rw [codewordAt_secFixed _ t hk, hschk, reportedIndices, flipAt_nil]
  rw [codewordAt_sixteen, codewordAt_sixteen] at hkept
  obtain ⟨hdata, hparity⟩ := append_inj hkept
  refine ⟨fun b hb => ?_, hdata, hparity, ?_, ?_⟩
  · rw [mem_secCheck, hschk, reportedIndices] at hb
    obtain ⟨-, hlocated⟩ := hb
    exact List.not_mem_nil hlocated
  · rw [getD_secDecode _ (by rwa [secFixed_length]), hdata]
  · exact drives_exec_schk (s := { s with operands := { o with a := codewordAt 16 t k } }) hschk

end Sys2Proof.Machine
end

/-! ### Completion and frame

A step with nothing presented performs nothing (70_reset_and_hazards.md R175; log entry 5). An operation on well-formed operands
completes (R173), and one that completes writes the CW ports, the returned value and the counter of free port values, nothing else
(00_scope.md R12; 20_memory.md R48, R53). -/

section
namespace Sys2Proof.Machine

theorem step_of_op_none {s : State} (hop : s.op = none) : step s = .next s.idle := by simp only [step, hop]

/-- Settles O5: the step idles, and the value the ports show is a free one. -/
theorem stepWithNothingPresentedIdles : Obligations.StepWithNothingPresentedIdles :=
  fun s hop => ⟨Config.freePorts s.drawn, step_of_op_none hop⟩

/-- Well-formed operands keep B2G, the only operation that can be refused, from its refusal. -/
theorem exec_answers_of_wellFormed {i : Instr} {s : State} (h : wellFormed i s.operands = true) : ∃ t, exec i s = .next t :=
  exec_answers i s fun hb2g => group_size_ne_zero_of_wellFormed (hb2g ▸ h)

theorem exec_keeps_op {i : Instr} {s t : State} (h : exec i s = .next t) : t.op = s.op := by
  obtain ⟨-, p, rfl⟩ | ⟨-, r, rfl⟩ := exec_next_cases h
  · exact drive_op s p
  · exact giveBack_op s r

theorem exec_keeps_operands {i : Instr} {s t : State} (h : exec i s = .next t) : t.operands = s.operands := by
  obtain ⟨-, p, rfl⟩ | ⟨-, r, rfl⟩ := exec_next_cases h
  · exact drive_operands s p
  · exact giveBack_operands s r

/-- Format BUF, and no other, returns a value (30_encoding.md R61, R65). -/
theorem exec_returned_isSome {i : Instr} {s t : State} (h : exec i s = .next t) : t.returned.isSome = i.isBuf := by
  obtain ⟨hcw, p, rfl⟩ | ⟨hbuf, r, rfl⟩ := exec_next_cases h
  · rw [drive_returned, hcw, Option.isSome_none]
  · rw [giveBack_returned, hbuf, Option.isSome_some]

/-- Format BUF leaves the CW ports open, so it draws one free value for them (log entry 4). -/
theorem exec_drawn {i : Instr} {s t : State} (h : exec i s = .next t) :
    t.drawn = s.drawn + (if i.isBuf then 1 else 0) := by
  obtain ⟨hcw, p, rfl⟩ | ⟨hbuf, r, rfl⟩ := exec_next_cases h
  · simp [hcw]
  · simp [hbuf]

/-- Settles O7: completion, then the frame and the result field by field. -/
theorem operationsCompleteAndKeepTheirInputs : Obligations.OperationsCompleteAndKeepTheirInputs :=
  ⟨fun _ _ => exec_answers_of_wellFormed, fun _ _ _ h =>
    ⟨exec_keeps_cfg h, exec_keeps_op h, exec_keeps_operands h, exec_returned_isSome h, exec_drawn h⟩⟩

end Sys2Proof.Machine
end
